-- ==== Sys2Proof/Word.lean ====
section
/-!
DEFINITION. The word types of the core: bytes, 16-bit words, the fields of an instruction word
(spec 00_scope R6, R8; 30_encoding R61). All values are unsigned.
-/

namespace Sys2Proof

/-- A register, a timer or a memory location: 8 bits (10_state R20, R28, R29, R30). -/
abbrev Byte := BitVec 8

/-- I, pc, a stack entry or an instruction word: 16 bits (10_state R23, R25, R27; 30_encoding R60). -/
abbrev Word := BitVec 16

/-- A register number, the 4-bit field x or y (30_encoding R61, R63). -/
abbrev RegIdx := BitVec 4

/-- A 12-bit address field nnn (30_encoding R61, R63). -/
abbrev Addr12 := BitVec 12

end Sys2Proof
end

