-- ==== Sys2Proof/Config.lean ====
section
/-!
DEFINITION. What is fixed for the machine: the sizes of 00_scope R6, and the one free value, the
random byte of Cxnn. (The font table, the other parameter of R7, stands in Machine/Font.lean.)
-/

namespace Sys2Proof.Config

/-- Bytes of memory: addresses 0x000 to 0xFFF (00_scope R6, 20_memory R40). -/
def memSize : Nat := 0x1000

/-- Where a program is loaded and where pc starts (00_scope R6, 10_state R23). -/
def progBase : Nat := 0x200

/-- The longest program load_program accepts: 4096 - 0x200 bytes (00_scope R6, 70 R195). -/
def progMax : Nat := 3584

/-- Columns and rows of the framebuffer (00_scope R6). -/
def gfxWidth : Nat := 64

/-- See `gfxWidth`. -/
def gfxHeight : Nat := 32

/-- Pixels of the framebuffer: 64 times 32 (00_scope R6). -/
def gfxSize : Nat := 2048

/-- FREE VALUE (log 2). The random byte that the k-th executed Cxnn consumes, counted by
State.randomDraws: "an 8-bit input ... any value, no law" (42_load_and_alu R122, 60 R180, D9).
It has no body, so no proof can see a value of it or a relation between two of them. -/
opaque randomByte : Nat → Byte

end Sys2Proof.Config
end

