-- ==== Sys2Proof/Machine/Font.lean ====
section
/-!
DEFINITION. The font table FONT[0..79], a parameter of the spec (00_scope R7, 20_memory R43, D11).
The bytes are the spec's default, which it marks as general knowledge (PRESUMED, unsafe; log 4): no
meaning of an instruction and no statement rests on a value of it.
-/

namespace Sys2Proof.Machine

/-- Glyphs 0 to 7, five bytes each, top row first (20_memory R43). -/
def fontLow : List Byte :=
  [0xF0, 0x90, 0x90, 0x90, 0xF0,  0x20, 0x60, 0x20, 0x20, 0x70,
   0xF0, 0x10, 0xF0, 0x80, 0xF0,  0xF0, 0x10, 0xF0, 0x10, 0xF0] ++
  [0x90, 0x90, 0xF0, 0x10, 0x10,  0xF0, 0x80, 0xF0, 0x10, 0xF0,
   0xF0, 0x80, 0xF0, 0x90, 0xF0,  0xF0, 0x10, 0x20, 0x40, 0x40]

/-- Glyphs 8 to F (20_memory R43). -/
def fontHigh : List Byte :=
  [0xF0, 0x90, 0xF0, 0x90, 0xF0,  0xF0, 0x90, 0xF0, 0x10, 0xF0,
   0xF0, 0x90, 0xF0, 0x90, 0x90,  0xE0, 0x90, 0xE0, 0x90, 0xE0] ++
  [0xF0, 0x80, 0x80, 0x80, 0xF0,  0xE0, 0x90, 0x90, 0x90, 0xE0,
   0xF0, 0x80, 0xF0, 0x80, 0xF0,  0xF0, 0x80, 0xF0, 0x80, 0x80]

/-- FONT (20_memory R43). -/
def font : List Byte := fontLow ++ fontHigh

end Sys2Proof.Machine
end

