-- ==== Sys2Proof/Machine/State.lean ====
section
/-!
DEFINITION. The state of the core (10_state R20 to R37), the reasons a cycle can stop, and the state
right after reset.
-/

namespace Sys2Proof.Machine

/-- Memory as (address, byte) pairs in canonical form: addresses strictly rising and below 0x1000,
no entry equal to what an unlisted address reads as (`Memory.wf`, Machine/Ops.lean). -/
abbrev Memory := List Host.Cell

/-- The framebuffer: pixel p is bit p, p = column + 64 * row (10_state R31, 44_display R142). -/
abbrev Gfx := BitVec 2048

/-- The Machine State of 10_state, and two fields of the model's own: `randomDraws`, `soundTick`. -/
structure State where
  /-- V0..VF (R20); V[15] is also the flag (R22). -/
  v : Vector Byte 16
  /-- I, the index register (R27). -/
  index : Word
  /-- The program counter (R23, R24). -/
  pc : Word
  /-- stack[0..15], each a copy of a pc (R25). -/
  stack : Vector Word 16
  /-- How many stack entries are in use: 0 = empty, 16 = full (R25). -/
  sp : Fin 17
  /-- DT (R28). -/
  delayTimer : Byte
  /-- ST (R29). -/
  soundTimer : Byte
  /-- mem (R30). -/
  mem : Memory
  /-- gfx (R31). -/
  gfx : Gfx
  /-- key[0..15], true meaning pressed (R32). -/
  key : Vector Bool 16
  /-- The MODEL's own: how many random bytes have been consumed (R33(a); log 2). -/
  randomDraws : Nat
  /-- The MODEL's own: the sound_tick output of the last successful cycle (R33(b); log 1). -/
  soundTick : Bool
deriving DecidableEq, Repr

/-- The error outcomes of 60_exceptions R160. Each leaves the whole state unchanged (R166): the
state after a fault is the state before the step. All are safe: the spec names every one. -/
inductive Fault where
  /-- Raised by decode on a word that matches no row (R161). Safe. -/
  | unsupportedOpcode (word : Word)
  /-- Raised by 2nnn with a full stack and by 00EE with an empty one (R163). Safe. -/
  | stackFault
  /-- Raised by the fetch and by Dxyn, Fx33, Fx55, Fx65 when an access lies above 0xFFF; the payload
  is the lowest such address (R162; log 8). Safe. -/
  | addressFault (a : Word)
  /-- Raised by the host operation load_program, never by a cycle (R164). Safe. -/
  | programTooLarge
deriving DecidableEq, Repr

/-- Why the model gives no meaning. -/
inductive Refusal where
  /-- Raised by exec's arm of an instruction that has no meaning yet; no arm does now. Safe. -/
  | notModelled (mnemonic : String)
deriving DecidableEq, Repr

/-- The state after `initialize` (10_state R37, 70_reset_and_hazards R190): memory lists nothing, so
every address reads as its reset contents, the font and then zeros (log 5). -/
def State.reset : State where
  v := Vector.replicate 16 0
  index := 0
  pc := 0x200
  stack := Vector.replicate 16 0
  sp := 0
  delayTimer := 0
  soundTimer := 0
  mem := []
  gfx := 0
  key := Vector.replicate 16 false
  randomDraws := 0
  soundTick := false

end Sys2Proof.Machine
end

