-- ==== Sys2Proof/Machine/Ops.lean ====
section
/-!
DEFINITION. The named operations over memory, registers, the stack, the framebuffer and the timers,
and the one way an error is raised. Every instruction's meaning is built from these.
-/

namespace Sys2Proof.Machine

/-- What a cycle, or an instruction's own part of it, can end in (40_cycle_engine R80). -/
abbrev Result := Host.Outcome State Fault Refusal

/-! ## Errors (60_exceptions R160 to R167) -/

/-- `raise E(info)` (00_scope R10): the one way an exception is taken. It saves nothing, vectors
nowhere and changes no mode (60 R166): the fault carries no state, so the state is the one before.
There is no return from it inside the machine (60 R167). -/
def raise (f : Fault) : Result := .fault f

/-- The bytes base .. base + len - 1 reach above 0xFFF: addresses are computed without wrap, and an
access of no byte is never out of range (20_memory R47, R48). -/
def outOfRange (base : Word) (len : Nat) : Bool := 0 < len ∧ 0xFFF < base.toNat + len - 1

/-- The payload of AddressFault: the lowest address above 0xFFF of an access that starts at base and
reaches above it, `max(base, 0x1000)` (60 R162). -/
def lowestOutOfRange (base : Word) : Word := if base < 0x1000 then 0x1000 else base

/-- The range check of an instruction, made for its whole range before any write (20_memory R47). -/
def guardRange (base : Word) (len : Nat) (r : Result) : Result :=
  if outOfRange base len then raise (.addressFault (lowestOutOfRange base)) else r

/-! ## Memory (20_memory) -/

/-- What an address that memory does not list reads as: its reset contents, the font at 0x000 to
0x04F and zero above it (10_state R30, R37). -/
def Memory.unlisted (a : Nat) : Byte := font.getD a 0

/-- The byte at an address; a read has no side effect (20_memory R50). -/
def Memory.read : Memory → Nat → Byte
  | [], a => Memory.unlisted a
  | (k, b) :: rest, a => if k = a then b else Memory.read rest a

/-- Sets a byte, keeping the addresses rising and listing no byte equal to the unlisted one. -/
def Memory.put : Memory → Nat → Byte → Memory
  | [], a, b => if b = Memory.unlisted a then [] else [(a, b)]
  | (k, c) :: rest, a, b =>
    if a < k then
      if b = Memory.unlisted a then (k, c) :: rest else (a, b) :: (k, c) :: rest
    else if a = k then
      if b = Memory.unlisted a then rest else (a, b) :: rest
    else (k, c) :: Memory.put rest a b

/-- Writes a byte: every address 0x000 to 0xFFF is writable (20_memory R49). An address above 0xFFF
is no memory location and nothing is stored there; every caller has checked its range before. -/
def Memory.write (m : Memory) (a : Nat) (b : Byte) : Memory :=
  if a < Config.memSize then Memory.put m a b else m

/-- The bytes at a, a + 1, ... (n of them), in ascending addresses (20_memory R44). -/
def Memory.readBytes (m : Memory) (a : Nat) : Nat → List Byte
  | 0 => []
  | n + 1 => Memory.read m a :: Memory.readBytes m (a + 1) n

/-- Writes a list of bytes at a, a + 1, ..., in ascending addresses (20_memory R44). -/
def Memory.writeBytes (m : Memory) (a : Nat) : List Byte → Memory
  | [] => m
  | b :: bs => Memory.writeBytes (Memory.write m a b) (a + 1) bs

/-- The canonical form: addresses strictly rising, all inside memory, nothing listed that an unlisted
address would read as. -/
abbrev Memory.wf (m : Memory) : Prop :=
  m.Pairwise (fun c d => c.1 < d.1) ∧ ∀ c ∈ m, c.1 < Config.memSize ∧ c.2 ≠ Memory.unlisted c.1

/-! ## Registers and fields -/

/-- V[x] (10_state R20). -/
def State.reg (s : State) (x : RegIdx) : Byte := s.v[x.toNat]'x.isLt

/-- V[x] <- b (10_state R20). -/
def State.setReg (s : State) (x : RegIdx) (b : Byte) : State :=
  { s with v := s.v.set x.toNat b x.isLt }

/-- VF, which is V[15] (10_state R22). -/
def vf : RegIdx := 0xF

/-- Writes VF with a flag, 0 or 1 (10_state R22). -/
def State.setFlag (s : State) (flag : Byte) : State := s.setReg vf flag

/-- Writes the flag into VF first and the result into Vx second, so that with x = F the result stays
(40_cycle_engine R85; log 7). -/
def State.setFlagThenReg (s : State) (flag : Byte) (x : RegIdx) (b : Byte) : State :=
  (s.setFlag flag).setReg x b

/-- V[k], V[k+1], ... <- the bytes of the list (43_index_and_memory R135). -/
def State.setRegs (s : State) (k : Nat) : List Byte → State
  | [] => s
  | b :: bs => State.setRegs (s.setReg (BitVec.ofNat 4 k) b) (k + 1) bs

/-- I <- w (10_state R27). -/
def State.setIndex (s : State) (w : Word) : State := { s with index := w }

/-- mem <- m (10_state R30). -/
def State.setMem (s : State) (m : Memory) : State := { s with mem := m }

/-- gfx <- g (10_state R31). -/
def State.setGfx (s : State) (g : Gfx) : State := { s with gfx := g }

/-- DT <- b (10_state R28). -/
def State.setDelayTimer (s : State) (b : Byte) : State := { s with delayTimer := b }

/-- ST <- b (10_state R29). -/
def State.setSoundTimer (s : State) (b : Byte) : State := { s with soundTimer := b }

/-- The sound_tick output of the cycle (40_cycle_engine R88). -/
def State.setSoundTick (s : State) (t : Bool) : State := { s with soundTick := t }

/-- One random byte has been consumed (42_load_and_alu R122). -/
def State.drawn (s : State) : State := { s with randomDraws := s.randomDraws + 1 }

/-- The random byte a Cxnn executed in this state consumes: a free value (60 R180; log 2). -/
def State.random (s : State) : Byte := Config.randomByte s.randomDraws

/-- key[k] (10_state R32). -/
def State.keyDown (s : State) (k : BitVec 4) : Bool := s.key[k.toNat]'k.isLt

/-- key[k] <- pressed, a move of the host (60 R178). -/
def State.setKey (s : State) (k : BitVec 4) (pressed : Bool) : State :=
  { s with key := s.key.set k.toNat pressed k.isLt }

/-! ## The program counter (40_cycle_engine R86) -/

/-- pc <- w. The target is not checked: a bad one faults at the next fetch (40 R86, 41 R108). -/
def State.jump (s : State) (w : Word) : State := { s with pc := w }

/-- `next`: pc <- (A + 2) mod 65536 (00_scope R10). -/
def State.advance (s : State) : State := s.jump (s.pc + 2)

/-- `skip`: pc <- (A + 4) mod 65536 (00_scope R10). The skipped word is not decoded (41 R103). -/
def State.skip (s : State) : State := s.jump (s.pc + 4)

/-- skip if the condition holds, else next (40_cycle_engine R86). -/
def State.skipIf (s : State) (c : Bool) : State := if c then s.skip else s.advance

/-! ## The call stack (10_state R25) -/

/-- Pushes w at stack[sp] and increments sp; StackFault when sp = 16 (41_control_flow R102). -/
def push (w : Word) (s : State) (k : State → Result) : Result :=
  if h : s.sp.val < 16 then
    k { s with stack := s.stack.set s.sp.val w h, sp := ⟨s.sp.val + 1, by omega⟩ }
  else raise .stackFault

/-- Pops stack[sp - 1] and decrements sp, the slot keeping its value; StackFault when sp = 0
(41_control_flow R100). -/
def pop (s : State) (k : Word → State → Result) : Result :=
  if h : 0 < s.sp.val then
    k (s.stack[s.sp.val - 1]'(by omega)) { s with sp := ⟨s.sp.val - 1, by omega⟩ }
  else raise .stackFault

/-! ## The framebuffer (44_display) -/

/-- gfx[p] (44_display R142). -/
def Gfx.pixel (g : Gfx) (p : Nat) : Bool := g.getLsbD p

/-- gfx[p] <- gfx[p] ^ 1 (44_display R141). -/
def Gfx.flip (g : Gfx) (p : Nat) : Gfx := g ^^^ (1#2048 <<< p)

/-- The pixel of column cx and row cy, each taken modulo its axis (44_display R141, R142). -/
def pixelIndex (cx cy : Nat) : Nat := cx % Config.gfxWidth + cy % Config.gfxHeight * Config.gfxWidth

/-- Bit 7 - col of a sprite byte: bit 7 is column 0, the leftmost (44_display R141). -/
def spriteBit (b : Byte) (col : Nat) : Bool := b.getLsbD (7 - col)

/-- A draw in progress: the framebuffer and whether a pixel has gone from 1 to 0 so far. -/
structure Drawing where
  gfx : Gfx
  collision : Bool
deriving DecidableEq, Repr

/-- The inner step of 44_display R141: a set sprite bit flips its pixel and records a collision if
the pixel was set; a zero bit leaves its pixel alone. -/
def drawBit (cx cy : Nat) (bit : Bool) (d : Drawing) : Drawing :=
  if bit then
    { gfx := Gfx.flip d.gfx (pixelIndex cx cy)
      collision := d.collision || Gfx.pixel d.gfx (pixelIndex cx cy) }
  else d

/-- Columns 0 to 7 of one sprite row (44_display R141). -/
def drawRow (cx cy : Nat) (b : Byte) (d : Drawing) : Drawing :=
  (List.range 8).foldl (fun d col => drawBit (cx + col) cy (spriteBit b col) d) d

/-- The rows of a sprite, one byte each, from row cy down (44_display R141). -/
def drawRows (cx cy : Nat) : List Byte → Drawing → Drawing
  | [], d => d
  | b :: bs, d => drawRows cx (cy + 1) bs (drawRow cx cy b d)

/-! ## The timers (40_cycle_engine R87, R88) -/

/-- One count of a timer: down by one when nonzero, never below zero (40_cycle_engine R87). -/
def countDown (t : Byte) : Byte := if t = 0 then 0 else t - 1

/-- The timer tick at the end of every successful cycle: both timers count, and the sound tick is
emitted when ST goes from 1 to 0 (40_cycle_engine R87, R88). -/
def tick (s : State) : State :=
  ((s.setDelayTimer (countDown s.delayTimer)).setSoundTimer (countDown s.soundTimer)).setSoundTick
    (s.soundTimer == 1)

/-- The end of a cycle: the tick after a success, nothing after an error (40_cycle_engine R81, R89). -/
def endCycle : Result → Result
  | .next s => .next (tick s)
  | .fault f => .fault f
  | .refused r => .refused r

end Sys2Proof.Machine
end

