-- ==== Sys2Proof/Machine/Flags.lean ====
section
/-!
DEFINITION. What the flag-writing instructions put into VF (10_state R22), always 0 or 1, each
computed exactly on unsigned values (42_load_and_alu R110).
-/

namespace Sys2Proof.Machine

/-- A flag as a register value: 1 or 0 (10_state R22). -/
def flagByte (c : Bool) : Byte := if c then 1 else 0

/-- Carry: 1 if a + b > 255 (42_load_and_alu R117). -/
def carryFlag (a b : Byte) : Byte := flagByte (255 < a.toNat + b.toNat)

/-- No borrow of a - b: 1 if a >= b, in particular when equal (42_load_and_alu R118, R120). -/
def noBorrowFlag (a b : Byte) : Byte := flagByte (b.toNat ≤ a.toNat)

/-- The bit a right shift moves out: bit 0 (42_load_and_alu R119). -/
def shrFlag (a : Byte) : Byte := flagByte (a.getLsbD 0)

/-- The bit a left shift moves out: bit 7, as 0 or 1 (42_load_and_alu R121). -/
def shlFlag (a : Byte) : Byte := flagByte (a.getLsbD 7)

end Sys2Proof.Machine
end

