-- ==== Sys2Proof/Machine/Alu.lean ====
section
/-!
DEFINITION. Load, arithmetic, logic and random (spec 42_load_and_alu): 6xnn, 7xnn, 8xy0 to 8xy7,
8xyE, Cxnn. Operands are start-of-cycle values (40_cycle_engine R84); none can raise.
-/

namespace Sys2Proof.Machine

/-- 6xnn LD Vx, nn (R111). -/
def execLdImm (x : RegIdx) (nn : Byte) (s : State) : Result := .next (s.setReg x nn).advance

/-- 7xnn ADD Vx, nn: mod 256, no flag (R112). -/
def execAddImm (x : RegIdx) (nn : Byte) (s : State) : Result :=
  .next (s.setReg x (s.reg x + nn)).advance

/-- 8xy0 LD Vx, Vy (R113). -/
def execLdReg (x y : RegIdx) (s : State) : Result := .next (s.setReg x (s.reg y)).advance

/-- 8xy1 OR Vx, Vy: VF is not written (R114). -/
def execOrReg (x y : RegIdx) (s : State) : Result :=
  .next (s.setReg x (s.reg x ||| s.reg y)).advance

/-- 8xy2 AND Vx, Vy: VF is not written (R115). -/
def execAndReg (x y : RegIdx) (s : State) : Result :=
  .next (s.setReg x (s.reg x &&& s.reg y)).advance

/-- 8xy3 XOR Vx, Vy: VF is not written (R116). -/
def execXorReg (x y : RegIdx) (s : State) : Result :=
  .next (s.setReg x (s.reg x ^^^ s.reg y)).advance

/-- 8xy4 ADD Vx, Vy: carry out, no carry in (R117, R123). -/
def execAddReg (x y : RegIdx) (s : State) : Result :=
  .next (s.setFlagThenReg (carryFlag (s.reg x) (s.reg y)) x (s.reg x + s.reg y)).advance

/-- 8xy5 SUB Vx, Vy (R118, R123). -/
def execSubReg (x y : RegIdx) (s : State) : Result :=
  .next (s.setFlagThenReg (noBorrowFlag (s.reg x) (s.reg y)) x (s.reg x - s.reg y)).advance

/-- 8xy6 SHR Vx: Vy is neither read nor written (R119, R123). -/
def execShr (x _y : RegIdx) (s : State) : Result :=
  .next (s.setFlagThenReg (shrFlag (s.reg x)) x (s.reg x >>> 1)).advance

/-- 8xy7 SUBN Vx, Vy: the destination is Vx (R120, R123). -/
def execSubnReg (x y : RegIdx) (s : State) : Result :=
  .next (s.setFlagThenReg (noBorrowFlag (s.reg y) (s.reg x)) x (s.reg y - s.reg x)).advance

/-- 8xyE SHL Vx: Vy is neither read nor written (R121, R123). -/
def execShl (x _y : RegIdx) (s : State) : Result :=
  .next (s.setFlagThenReg (shlFlag (s.reg x)) x (s.reg x <<< 1)).advance

/-- Cxnn RND Vx, nn: one random byte is consumed (R122). -/
def execRnd (x : RegIdx) (nn : Byte) (s : State) : Result :=
  .next (s.setReg x (s.random &&& nn)).drawn.advance

end Sys2Proof.Machine
end

