-- ==== Sys2Proof/Machine/Operands.lean ====
section
/-!
DEFINITION. Operand forms: how an immediate, a register range, an address, a key number or a digit
is obtained. Every immediate is zero-extended; none is signed or scaled (30_encoding R63).
-/

namespace Sys2Proof.Machine

/-- nnn as an address of 16 bits (30_encoding R63). -/
def addrOf (nnn : Addr12) : Word := nnn.setWidth 16

/-- nnn + V0, at most 0x10FE, so nothing is reduced (41_control_flow R107). -/
def offsetTarget (nnn : Addr12) (v0 : Byte) : Word := addrOf nnn + v0.setWidth 16

/-- I + Vx mod 65536 (43_index_and_memory R131). -/
def indexPlus (index : Word) (b : Byte) : Word := index + b.setWidth 16

/-- Vx * 5, the whole byte multiplied (43_index_and_memory R132). -/
def glyphAddress (b : Byte) : Word := b.setWidth 16 * 5

/-- How many registers V0..Vx names, x + 1 (43_index_and_memory R134, R135). -/
def rangeLength (x : RegIdx) : Nat := x.toNat + 1

/-- The values of V0..Vx, in order (43_index_and_memory R134). -/
def regRange (s : State) (x : RegIdx) : List Byte :=
  (List.range (rangeLength x)).map (fun k => s.reg (BitVec.ofNat 4 k))

/-- The key Vx names: its low 4 bits (45_keys_and_timers R150). -/
def keyIndex (b : Byte) : BitVec 4 := b.extractLsb' 0 4

/-- The least pressed key, if any is pressed (45_keys_and_timers R153, D8; log 9). -/
def lowestKey (s : State) : Option (BitVec 4) :=
  ((List.range 16).map (BitVec.ofNat 4)).find? s.keyDown

/-- The hundreds, tens and ones digit of a byte (43_index_and_memory R133). -/
def bcdDigits (b : Byte) : List Byte :=
  [BitVec.ofNat 8 (b.toNat / 100), BitVec.ofNat 8 (b.toNat / 10 % 10), BitVec.ofNat 8 (b.toNat % 10)]

end Sys2Proof.Machine
end

