-- ==== Sys2Proof/Machine/Control.lean ====
section
/-!
DEFINITION. Control flow (spec 41_control_flow): 00EE, 1nnn, 2nnn, 3xnn, 4xnn, 5xy0, 9xy0, Bnnn.
None writes VF or any general register.
-/

namespace Sys2Proof.Machine

/-- 00EE RET: control returns to the instruction after the CALL whose address is popped (R100). -/
def execRet (s : State) : Result := pop s fun w t => .next (t.jump (w + 2))

/-- 1nnn JP nnn (R101). -/
def execJp (nnn : Addr12) (s : State) : Result := .next (s.jump (addrOf nnn))

/-- 2nnn CALL nnn: pushes the address of the CALL itself (R102). -/
def execCall (nnn : Addr12) (s : State) : Result := push s.pc s fun t => .next (t.jump (addrOf nnn))

/-- 3xnn SE Vx, nn (R103). -/
def execSeImm (x : RegIdx) (nn : Byte) (s : State) : Result := .next (s.skipIf (s.reg x == nn))

/-- 4xnn SNE Vx, nn (R104). -/
def execSneImm (x : RegIdx) (nn : Byte) (s : State) : Result := .next (s.skipIf (s.reg x != nn))

/-- 5xy0 SE Vx, Vy (R105). -/
def execSeReg (x y : RegIdx) (s : State) : Result := .next (s.skipIf (s.reg x == s.reg y))

/-- 9xy0 SNE Vx, Vy (R106). -/
def execSneReg (x y : RegIdx) (s : State) : Result := .next (s.skipIf (s.reg x != s.reg y))

/-- Bnnn JP V0, nnn: always V0, not reduced modulo 4096 (R107). -/
def execJpV0 (nnn : Addr12) (s : State) : Result := .next (s.jump (offsetTarget nnn (s.reg 0)))

end Sys2Proof.Machine
end

