-- ==== Sys2Proof/Machine/Display.lean ====
section
/-!
DEFINITION. The display (spec 44_display): 00E0 and Dxyn, the only writers of gfx in a cycle.
-/

namespace Sys2Proof.Machine

/-- 00E0 CLS: every pixel 0; VF is not written (R140). -/
def execCls (s : State) : Result := .next (s.setGfx 0).advance

/-- Dxyn DRW Vx, Vy, n: the coordinates are the values before VF is written (40_cycle_engine R84);
the whole sprite is range-checked before anything is drawn; n = 0 reads nothing (R141). -/
def execDrw (x y : RegIdx) (n : BitVec 4) (s : State) : Result :=
  let sprite := Memory.readBytes s.mem s.index.toNat n.toNat
  let d := drawRows (s.reg x).toNat (s.reg y).toNat sprite ⟨s.gfx, false⟩
  guardRange s.index n.toNat (.next ((s.setGfx d.gfx).setFlag (flagByte d.collision)).advance)

end Sys2Proof.Machine
end

