-- ==== Sys2Proof/Machine/IndexMem.lean ====
section
/-!
DEFINITION. Index register and memory (spec 43_index_and_memory): Annn, Fx1E, Fx29, Fx33, Fx55, Fx65.
No access changes I; the range check precedes every write (20_memory R47).
-/

namespace Sys2Proof.Machine

/-- Annn LD I, nnn (R130). -/
def execLdI (nnn : Addr12) (s : State) : Result := .next (s.setIndex (addrOf nnn)).advance

/-- Fx1E ADD I, Vx: no flag, no range check (R131). -/
def execAddI (x : RegIdx) (s : State) : Result :=
  .next (s.setIndex (indexPlus s.index (s.reg x))).advance

/-- Fx29 LD F, Vx (R132). -/
def execLdF (x : RegIdx) (s : State) : Result :=
  .next (s.setIndex (glyphAddress (s.reg x))).advance

/-- Fx33 LD B, Vx (R133). -/
def execLdB (x : RegIdx) (s : State) : Result :=
  guardRange s.index 3
    (.next (s.setMem (Memory.writeBytes s.mem s.index.toNat (bcdDigits (s.reg x)))).advance)

/-- Fx55 LD [I], Vx (R134). -/
def execStoreRegs (x : RegIdx) (s : State) : Result :=
  guardRange s.index (rangeLength x)
    (.next (s.setMem (Memory.writeBytes s.mem s.index.toNat (regRange s x))).advance)

/-- Fx65 LD Vx, [I] (R135). -/
def execLoadRegs (x : RegIdx) (s : State) : Result :=
  guardRange s.index (rangeLength x)
    (.next (s.setRegs 0 (Memory.readBytes s.mem s.index.toNat (rangeLength x))).advance)

end Sys2Proof.Machine
end

