-- ==== Sys2Proof/Machine/KeysTimers.lean ====
section
/-!
DEFINITION. Keys and timers (spec 45_keys_and_timers): Ex9E, ExA1, Fx07, Fx0A, Fx15, Fx18. None can
raise; the timer tick of the same cycle follows each (40_cycle_engine R87).
-/

namespace Sys2Proof.Machine

/-- Ex9E SKP Vx: the level of the key at the start of the cycle (R150). -/
def execSkp (x : RegIdx) (s : State) : Result := .next (s.skipIf (s.keyDown (keyIndex (s.reg x))))

/-- ExA1 SKNP Vx (R151). -/
def execSknp (x : RegIdx) (s : State) : Result :=
  .next (s.skipIf (!s.keyDown (keyIndex (s.reg x))))

/-- Fx07 LD Vx, DT: the timer before this cycle's count (R152). -/
def execLdVxDT (x : RegIdx) (s : State) : Result := .next (s.setReg x s.delayTimer).advance

/-- Fx0A LD Vx, K: the least pressed key, or a blocked cycle that succeeds, writes nothing and leaves
pc where it is (R153, 40_cycle_engine R91). -/
def execLdVxK (x : RegIdx) (s : State) : Result :=
  match lowestKey s with
  | some k => .next (s.setReg x (k.setWidth 8)).advance
  | none => .next s

/-- Fx15 LD DT, Vx (R154). -/
def execLdDTVx (x : RegIdx) (s : State) : Result := .next (s.setDelayTimer (s.reg x)).advance

/-- Fx18 LD ST, Vx (R155). -/
def execLdSTVx (x : RegIdx) (s : State) : Result := .next (s.setSoundTimer (s.reg x)).advance

end Sys2Proof.Machine
end

