-- ==== Sys2Proof/Syntax.lean ====
section
/-!
DEFINITION. The instruction set: one constructor per row of spec/opcode_table.json, in the table's
order (30_encoding R64). An operand is exactly as wide as its field of the word, so every value of
Instr is an instruction of the core; which words are instructions is WellFormed.lean's question.
-/

namespace Sys2Proof

/-- The 34 instructions of 30_encoding R64. The comment of each gives its pattern. -/
inductive Instr where
  | cls                                -- 00E0
  | ret                                -- 00EE
  | jp (nnn : Addr12)                  -- 1nnn
  | call (nnn : Addr12)                -- 2nnn
  | seImm (x : RegIdx) (nn : Byte)     -- 3xnn
  | sneImm (x : RegIdx) (nn : Byte)    -- 4xnn
  | seReg (x y : RegIdx)               -- 5xy0
  | ldImm (x : RegIdx) (nn : Byte)     -- 6xnn
  | addImm (x : RegIdx) (nn : Byte)    -- 7xnn
  | ldReg (x y : RegIdx)               -- 8xy0
  | orReg (x y : RegIdx)               -- 8xy1
  | andReg (x y : RegIdx)              -- 8xy2
  | xorReg (x y : RegIdx)              -- 8xy3
  | addReg (x y : RegIdx)              -- 8xy4
  | subReg (x y : RegIdx)              -- 8xy5
  | shr (x y : RegIdx)                 -- 8xy6: y is matched as any value and not used (R68)
  | subnReg (x y : RegIdx)             -- 8xy7
  | shl (x y : RegIdx)                 -- 8xyE: y is matched as any value and not used (R68)
  | sneReg (x y : RegIdx)              -- 9xy0
  | ldI (nnn : Addr12)                 -- Annn
  | jpV0 (nnn : Addr12)                -- Bnnn
  | rnd (x : RegIdx) (nn : Byte)       -- Cxnn
  | drw (x y : RegIdx) (n : BitVec 4)  -- Dxyn
  | skp (x : RegIdx)                   -- Ex9E
  | sknp (x : RegIdx)                  -- ExA1
  | ldVxDT (x : RegIdx)                -- Fx07
  | ldVxK (x : RegIdx)                 -- Fx0A
  | ldDTVx (x : RegIdx)                -- Fx15
  | ldSTVx (x : RegIdx)                -- Fx18
  | addI (x : RegIdx)                  -- Fx1E
  | ldF (x : RegIdx)                   -- Fx29
  | ldB (x : RegIdx)                   -- Fx33
  | storeRegs (x : RegIdx)             -- Fx55
  | loadRegs (x : RegIdx)              -- Fx65
deriving DecidableEq, Repr

end Sys2Proof
end

