-- ==== Sys2Proof/Decode.lean ====
section
/-!
DEFINITION. Decoding and encoding (30_encoding R60 to R69). The decoder is the two-level decode of
R65: the top nibble selects the family, then the remaining fixed digits, all of which must match.
It is total: what it does not give an instruction for is unsupported (R66). The encoder is written
from the pattern column of R64.
-/

namespace Sys2Proof

/-- Field x, word[11:8] (30_encoding R61). -/
def fieldX (w : Word) : RegIdx := w.extractLsb' 8 4

/-- Field y, word[7:4] (30_encoding R61). -/
def fieldY (w : Word) : RegIdx := w.extractLsb' 4 4

/-- Field n, word[3:0] (30_encoding R61). -/
def fieldN (w : Word) : BitVec 4 := w.extractLsb' 0 4

/-- Field nn, word[7:0] (30_encoding R61). -/
def fieldNN (w : Word) : Byte := w.extractLsb' 0 8

/-- Field nnn, word[11:0] (30_encoding R61). -/
def fieldNNN (w : Word) : Addr12 := w.extractLsb' 0 12

/-- Field op, word[15:12], the family selector (30_encoding R61). -/
def fieldOp (w : Word) : BitVec 4 := w.extractLsb' 12 4

/-- The word of two consecutive bytes, "first byte is high byte" (20_memory R44). -/
def wordOfBytes (hi lo : Byte) : Word := hi ++ lo

/-- Family 0 compares the whole word (30_encoding R65). -/
def decodeFamily0 (w : Word) : Option Instr :=
  if w = 0x00E0 then some .cls else if w = 0x00EE then some .ret else none

/-- Family 8 selects on n (30_encoding R65). -/
def decodeFamily8 (w : Word) : Option Instr :=
  let x := fieldX w
  let y := fieldY w
  let n := fieldN w
  if n = 0x0 then some (.ldReg x y)
  else if n = 0x1 then some (.orReg x y)
  else if n = 0x2 then some (.andReg x y)
  else if n = 0x3 then some (.xorReg x y)
  else if n = 0x4 then some (.addReg x y)
  else if n = 0x5 then some (.subReg x y)
  else if n = 0x6 then some (.shr x y)
  else if n = 0x7 then some (.subnReg x y)
  else if n = 0xE then some (.shl x y)
  else none

/-- Family E selects on nn (30_encoding R65). -/
def decodeFamilyE (w : Word) : Option Instr :=
  let x := fieldX w
  let nn := fieldNN w
  if nn = 0x9E then some (.skp x) else if nn = 0xA1 then some (.sknp x) else none

/-- Family F selects on nn (30_encoding R65). -/
def decodeFamilyF (w : Word) : Option Instr :=
  let x := fieldX w
  let nn := fieldNN w
  if nn = 0x07 then some (.ldVxDT x)
  else if nn = 0x0A then some (.ldVxK x)
  else if nn = 0x15 then some (.ldDTVx x)
  else if nn = 0x18 then some (.ldSTVx x)
  else if nn = 0x1E then some (.addI x)
  else if nn = 0x29 then some (.ldF x)
  else if nn = 0x33 then some (.ldB x)
  else if nn = 0x55 then some (.storeRegs x)
  else if nn = 0x65 then some (.loadRegs x)
  else none

/-- The instruction a word stands for, none when the word is unsupported (30_encoding R65, R66). -/
def decodeWord (w : Word) : Option Instr :=
  let x := fieldX w
  let y := fieldY w
  let n := fieldN w
  let nn := fieldNN w
  let nnn := fieldNNN w
  let op := fieldOp w
  if op = 0x0 then decodeFamily0 w
  else if op = 0x1 then some (.jp nnn)
  else if op = 0x2 then some (.call nnn)
  else if op = 0x3 then some (.seImm x nn)
  else if op = 0x4 then some (.sneImm x nn)
  else if op = 0x5 then if n = 0x0 then some (.seReg x y) else none
  else if op = 0x6 then some (.ldImm x nn)
  else if op = 0x7 then some (.addImm x nn)
  else if op = 0x8 then decodeFamily8 w
  else if op = 0x9 then if n = 0x0 then some (.sneReg x y) else none
  else if op = 0xA then some (.ldI nnn)
  else if op = 0xB then some (.jpV0 nnn)
  else if op = 0xC then some (.rnd x nn)
  else if op = 0xD then some (.drw x y n)
  else if op = 0xE then decodeFamilyE w
  else decodeFamilyF w

/-- What decoding any bytes can give. A rejection has a name: the word is unsupported
(30_encoding R66), or fewer than two bytes were given. -/
inductive Decoded where
  | instr (i : Instr) (rest : List Byte)
  | unsupportedOpcode (word : Word)
  | truncated
deriving DecidableEq, Repr

/-- The instruction at the head of any bytes, and the bytes after it (30_encoding R60, R65). -/
def decodeBytes : List Byte → Decoded
  | hi :: lo :: rest =>
    match decodeWord (wordOfBytes hi lo) with
    | some i => .instr i rest
    | none => .unsupportedOpcode (wordOfBytes hi lo)
  | _ => .truncated

/-- The word of an instruction, digit by digit from its pattern (30_encoding R62, R64). -/
def encode : Instr → Word
  | .cls => 0x00E0
  | .ret => 0x00EE
  | .jp nnn => 0x1#4 ++ nnn
  | .call nnn => 0x2#4 ++ nnn
  | .seImm x nn => 0x3#4 ++ x ++ nn
  | .sneImm x nn => 0x4#4 ++ x ++ nn
  | .seReg x y => 0x5#4 ++ x ++ y ++ 0x0#4
  | .ldImm x nn => 0x6#4 ++ x ++ nn
  | .addImm x nn => 0x7#4 ++ x ++ nn
  | .ldReg x y => 0x8#4 ++ x ++ y ++ 0x0#4
  | .orReg x y => 0x8#4 ++ x ++ y ++ 0x1#4
  | .andReg x y => 0x8#4 ++ x ++ y ++ 0x2#4
  | .xorReg x y => 0x8#4 ++ x ++ y ++ 0x3#4
  | .addReg x y => 0x8#4 ++ x ++ y ++ 0x4#4
  | .subReg x y => 0x8#4 ++ x ++ y ++ 0x5#4
  | .shr x y => 0x8#4 ++ x ++ y ++ 0x6#4
  | .subnReg x y => 0x8#4 ++ x ++ y ++ 0x7#4
  | .shl x y => 0x8#4 ++ x ++ y ++ 0xE#4
  | .sneReg x y => 0x9#4 ++ x ++ y ++ 0x0#4
  | .ldI nnn => 0xA#4 ++ nnn
  | .jpV0 nnn => 0xB#4 ++ nnn
  | .rnd x nn => 0xC#4 ++ x ++ nn
  | .drw x y n => 0xD#4 ++ x ++ y ++ n
  | .skp x => 0xE#4 ++ x ++ 0x9E#8
  | .sknp x => 0xE#4 ++ x ++ 0xA1#8
  | .ldVxDT x => 0xF#4 ++ x ++ 0x07#8
  | .ldVxK x => 0xF#4 ++ x ++ 0x0A#8
  | .ldDTVx x => 0xF#4 ++ x ++ 0x15#8
  | .ldSTVx x => 0xF#4 ++ x ++ 0x18#8
  | .addI x => 0xF#4 ++ x ++ 0x1E#8
  | .ldF x => 0xF#4 ++ x ++ 0x29#8
  | .ldB x => 0xF#4 ++ x ++ 0x33#8
  | .storeRegs x => 0xF#4 ++ x ++ 0x55#8
  | .loadRegs x => 0xF#4 ++ x ++ 0x65#8

/-- The bytes of a word as the hardware stores them: the high byte first (20_memory R44). -/
def bytesOfWord (w : Word) : List Byte := [w.extractLsb' 8 8, w.extractLsb' 0 8]

/-- The bytes of an instruction whose first nbits bits are w, numbered as spec/opcode_table.json
numbers them. Every instruction is one 16-bit word, so bits above 15 are no part of it; bits at and
above nbits are zero (log 15). -/
def tableBytes (nbits w : Nat) : List Byte := bytesOfWord (BitVec.ofNat 16 (w % 2 ^ nbits))

/-- The instruction the decoder reads from those bytes, none where it refuses them. -/
def decodeTableWord (nbits w : Nat) : Option Instr :=
  match decodeBytes (tableBytes nbits w) with
  | .instr i _ => some i
  | _ => none

end Sys2Proof
end

