-- ==== Sys2Proof/Machine/Fetch.lean ====
section
/-!
DEFINITION. Steps 1 and 2 of a cycle: fetching the word at pc and decoding it
(40_cycle_engine R81 to R83).
-/

namespace Sys2Proof.Machine

/-- The word at pc, high byte first; AddressFault when a byte of it lies above 0xFFF. No alignment is
required (40_cycle_engine R82, 20_memory R45). -/
def fetchWord (s : State) : Except Fault Word :=
  if outOfRange s.pc 2 then .error (.addressFault (lowestOutOfRange s.pc))
  else .ok (wordOfBytes (Memory.read s.mem s.pc.toNat) (Memory.read s.mem (s.pc.toNat + 1)))

/-- The instruction of a word; UnsupportedOpcode(word) when it matches no row (40_cycle_engine R83). -/
def decodeOrRaise (w : Word) : Except Fault Instr :=
  match decodeWord w with
  | some i => .ok i
  | none => .error (.unsupportedOpcode w)

/-- Fetch, then decode: the fetch's fault comes first (60_exceptions R165). -/
def fetchInstr (s : State) : Except Fault Instr :=
  match fetchWord s with
  | .ok w => decodeOrRaise w
  | .error f => .error f

/-- The state with the bytes of a word placed where the next fetch reads. Where pc addresses no two
bytes of memory there is no such place and the state is unchanged. -/
def placeAtPc (s : State) (bytes : List Byte) : State :=
  if outOfRange s.pc 2 then s else s.setMem (Memory.writeBytes s.mem s.pc.toNat bytes)

end Sys2Proof.Machine
end

