-- ==== Sys2Proof/Machine/Step.lean ====
section
/-!
DEFINITION. One cycle of the engine, `execute_cycle` (40_cycle_engine R80, R81): fetch and decode, the
instruction, the timer tick. A fault of any of the three ends the cycle with nothing changed.
-/

namespace Sys2Proof.Machine

/-- One cycle (40_cycle_engine R81). -/
def step (s : State) : Host.Outcome State Fault Refusal :=
  match fetchInstr s with
  | .ok i => endCycle (exec i s)
  | .error f => raise f

/-- s with the instruction whose first nbits bits are w placed where step fetches next: at pc, high
byte first. It stands for what load_program does before a run (log 13). -/
def State.withFetchWord (s : State) (nbits w : Nat) : State := placeAtPc s (tableBytes nbits w)

end Sys2Proof.Machine
end

