-- ==== Sys2Proof/WellFormed.lean ====
section
/-!
DEFINITION. What is well formed: a word of the instruction set and a program image. The first is the
opcode map of 30_encoding R64 as rows of mask and match, written from the table and apart from the
decoder, so that the two can be held against each other. Operands of an Instr need no check: each
has exactly its field's width (30_encoding R61, R63).
-/

namespace Sys2Proof

/-- One row of the opcode map: a word w selects it when `w & mask = value` (30_encoding R64). -/
structure OpRow where
  value : Word
  mask : Word
deriving DecidableEq, Repr

/-- The word selects the row (30_encoding R64). -/
def OpRow.selects (r : OpRow) (w : Word) : Bool := w &&& r.mask == r.value

/-- The 34 rows of 30_encoding R64, in the table's order. -/
def opcodeMap : List OpRow :=
  [⟨0x00E0, 0xFFFF⟩, ⟨0x00EE, 0xFFFF⟩, ⟨0x1000, 0xF000⟩, ⟨0x2000, 0xF000⟩, ⟨0x3000, 0xF000⟩,
   ⟨0x4000, 0xF000⟩, ⟨0x5000, 0xF00F⟩, ⟨0x6000, 0xF000⟩, ⟨0x7000, 0xF000⟩] ++
  [⟨0x8000, 0xF00F⟩, ⟨0x8001, 0xF00F⟩, ⟨0x8002, 0xF00F⟩, ⟨0x8003, 0xF00F⟩, ⟨0x8004, 0xF00F⟩,
   ⟨0x8005, 0xF00F⟩, ⟨0x8006, 0xF00F⟩, ⟨0x8007, 0xF00F⟩, ⟨0x800E, 0xF00F⟩, ⟨0x9000, 0xF00F⟩] ++
  [⟨0xA000, 0xF000⟩, ⟨0xB000, 0xF000⟩, ⟨0xC000, 0xF000⟩, ⟨0xD000, 0xF000⟩, ⟨0xE09E, 0xF0FF⟩,
   ⟨0xE0A1, 0xF0FF⟩] ++
  [⟨0xF007, 0xF0FF⟩, ⟨0xF00A, 0xF0FF⟩, ⟨0xF015, 0xF0FF⟩, ⟨0xF018, 0xF0FF⟩, ⟨0xF01E, 0xF0FF⟩,
   ⟨0xF029, 0xF0FF⟩, ⟨0xF033, 0xF0FF⟩, ⟨0xF055, 0xF0FF⟩, ⟨0xF065, 0xF0FF⟩]

/-- The row of each instruction: the match and mask columns of 30_encoding R64. -/
def Instr.row : Instr → OpRow
  | .cls => ⟨0x00E0, 0xFFFF⟩
  | .ret => ⟨0x00EE, 0xFFFF⟩
  | .jp _ => ⟨0x1000, 0xF000⟩
  | .call _ => ⟨0x2000, 0xF000⟩
  | .seImm _ _ => ⟨0x3000, 0xF000⟩
  | .sneImm _ _ => ⟨0x4000, 0xF000⟩
  | .seReg _ _ => ⟨0x5000, 0xF00F⟩
  | .ldImm _ _ => ⟨0x6000, 0xF000⟩
  | .addImm _ _ => ⟨0x7000, 0xF000⟩
  | .ldReg _ _ => ⟨0x8000, 0xF00F⟩
  | .orReg _ _ => ⟨0x8001, 0xF00F⟩
  | .andReg _ _ => ⟨0x8002, 0xF00F⟩
  | .xorReg _ _ => ⟨0x8003, 0xF00F⟩
  | .addReg _ _ => ⟨0x8004, 0xF00F⟩
  | .subReg _ _ => ⟨0x8005, 0xF00F⟩
  | .shr _ _ => ⟨0x8006, 0xF00F⟩
  | .subnReg _ _ => ⟨0x8007, 0xF00F⟩
  | .shl _ _ => ⟨0x800E, 0xF00F⟩
  | .sneReg _ _ => ⟨0x9000, 0xF00F⟩
  | .ldI _ => ⟨0xA000, 0xF000⟩
  | .jpV0 _ => ⟨0xB000, 0xF000⟩
  | .rnd _ _ => ⟨0xC000, 0xF000⟩
  | .drw _ _ _ => ⟨0xD000, 0xF000⟩
  | .skp _ => ⟨0xE09E, 0xF0FF⟩
  | .sknp _ => ⟨0xE0A1, 0xF0FF⟩
  | .ldVxDT _ => ⟨0xF007, 0xF0FF⟩
  | .ldVxK _ => ⟨0xF00A, 0xF0FF⟩
  | .ldDTVx _ => ⟨0xF015, 0xF0FF⟩
  | .ldSTVx _ => ⟨0xF018, 0xF0FF⟩
  | .addI _ => ⟨0xF01E, 0xF0FF⟩
  | .ldF _ => ⟨0xF029, 0xF0FF⟩
  | .ldB _ => ⟨0xF033, 0xF0FF⟩
  | .storeRegs _ => ⟨0xF055, 0xF0FF⟩
  | .loadRegs _ => ⟨0xF065, 0xF0FF⟩

/-- The word is an instruction: some row of the map selects it (30_encoding R64, R65). -/
def wordWellFormed (w : Word) : Bool := opcodeMap.any (OpRow.selects · w)

/-- The words 30_encoding R66 lists as unsupported, family by family, in the rule's own order. -/
def wordUnsupported (w : Word) : Bool :=
  let n := w.extractLsb' 0 4
  let nn := w.extractLsb' 0 8
  if w.extractLsb' 12 4 = 0x0 then w ≠ 0x00E0 ∧ w ≠ 0x00EE
  else if w.extractLsb' 12 4 = 0x5 then n ≠ 0x0
  else if w.extractLsb' 12 4 = 0x8 then n ∈ [0x8#4, 0x9, 0xA, 0xB, 0xC, 0xD, 0xF]
  else if w.extractLsb' 12 4 = 0x9 then n ≠ 0x0
  else if w.extractLsb' 12 4 = 0xE then nn ∉ [0x9E#8, 0xA1]
  else if w.extractLsb' 12 4 = 0xF then
    nn ∉ [0x07#8, 0x0A, 0x15, 0x18, 0x1E, 0x29, 0x33, 0x55, 0x65]
  else False

/-- The program fits: load_program takes at most 3584 bytes (70_reset_and_hazards R195). -/
def programWellFormed (bytes : List Byte) : Bool := bytes.length ≤ Config.progMax

end Sys2Proof
end

