-- ==== Sys2Proof/Machine/HostOps.lean ====
section
/-!
DEFINITION. The host's moves, each an atomic event between cycles: exactly those of 60_exceptions
R175 to R181 and 70_reset_and_hazards R190, R195. None is a step of the engine.
-/

namespace Sys2Proof.Machine

/-- `initialize()`: every piece of the spec's state takes its reset value, whatever it was; no sound
tick (70 R190). The model's own count of random bytes goes on, so that the bytes after a second
initialize bear no relation to those before it (60 R180; log 12). -/
def hostInitialize (s : State) : State := { State.reset with randomDraws := s.randomDraws }

/-- `load_program(bytes)`: at 0x200 and up, nothing else changed; an oversize program is rejected
whole with ProgramTooLarge (70 R195; log 13). -/
def hostLoadProgram (bytes : List Byte) (s : State) : Result :=
  if programWellFormed bytes then .next (s.setMem (Memory.writeBytes s.mem Config.progBase bytes))
  else raise .programTooLarge

/-- The key-mask write (60 R178). -/
def hostWriteKey (k : BitVec 4) (pressed : Bool) (s : State) : State := s.setKey k pressed

/-- The framebuffer read (60 R176). -/
def hostReadPixel (s : State) (p : Nat) : Bool := Gfx.pixel s.gfx p

/-- The delay timer read (60 R177). -/
def hostReadDelayTimer (s : State) : Byte := s.delayTimer

/-- The sound timer read (60 R177). -/
def hostReadSoundTimer (s : State) : Byte := s.soundTimer

/-- What `execute_cycle` gives the host: the state after it, the error if it raised one, and the
sound tick (40_cycle_engine R80). -/
structure CycleResult where
  state : State
  error : Option Fault
  soundTick : Bool
deriving DecidableEq, Repr

/-- `execute_cycle()` as the host sees it: an error leaves the state as it was and emits no tick
(40_cycle_engine R89, 60_exceptions R166). No step is refused, so the last arm never runs. -/
def executeCycle (s : State) : CycleResult :=
  match step s with
  | .next t => ⟨t, none, t.soundTick⟩
  | .fault f => ⟨s, some f, false⟩
  | .refused _ => ⟨s, none, false⟩

/-- The moves that change the core's state (60_exceptions R181); reads change nothing. -/
inductive HostMove where
  | reset
  | loadProgram (bytes : List Byte)
  | writeKey (k : BitVec 4) (pressed : Bool)
  | cycle
deriving DecidableEq, Repr

/-- The state after a move; a failed load or cycle leaves it unchanged (60_exceptions R164, R166). -/
def hostMove (m : HostMove) (s : State) : State :=
  match m with
  | .reset => hostInitialize s
  | .loadProgram bytes =>
    match hostLoadProgram bytes s with
    | .next t => t
    | _ => s
  | .writeKey k pressed => hostWriteKey k pressed s
  | .cycle => (executeCycle s).state

/-- The state after a sequence of moves, in order. -/
def hostRun (ms : List HostMove) (s : State) : State := ms.foldl (fun s m => hostMove m s) s

end Sys2Proof.Machine
end

