-- ==== Sys2Proof/Safety.lean ====
section
/-!
DEFINITION. The terms the claims use: what a form may change (its frame), the tables of the spec that
say for all instructions at once what they write, where they fault and how they change pc, what a
sprite covers, and the invariant of the machine.
-/

namespace Sys2Proof.Machine

/-! ## Frames -/

/-- What a form is allowed to change, besides pc: registers by number, bytes of memory by address, and
the other pieces of state as a whole. -/
structure Writes where
  regs : List RegIdx := []
  bytes : List Nat := []
  index : Bool := false
  stack : Bool := false
  delayTimer : Bool := false
  soundTimer : Bool := false
  gfx : Bool := false
  draws : Bool := false

/-- t differs from s only in pc and in what w allows. Memory is compared through the read of one
byte; the key mask and the sound-tick output are never an instruction's to change. -/
structure Frame (w : Writes) (s t : State) : Prop where
  regs : ∀ r, r ∉ w.regs → t.reg r = s.reg r
  bytes : ∀ a, a ∉ w.bytes → Memory.read t.mem a = Memory.read s.mem a
  index : w.index = false → t.index = s.index
  stack : w.stack = false → t.stack = s.stack ∧ t.sp = s.sp
  delayTimer : w.delayTimer = false → t.delayTimer = s.delayTimer
  soundTimer : w.soundTimer = false → t.soundTimer = s.soundTimer
  gfx : w.gfx = false → t.gfx = s.gfx
  draws : w.draws = false → t.randomDraws = s.randomDraws
  key : t.key = s.key
  soundTick : t.soundTick = s.soundTick

/-- The registers V0..Vx (43_index_and_memory R134, R135). -/
def regsUpTo (x : RegIdx) : List RegIdx := (List.range (x.toNat + 1)).map (BitVec.ofNat 4)

/-- The addresses base, base + 1, ... (len of them), computed without wrap (20_memory R48). -/
def addressesFrom (base : Word) (len : Nat) : List Nat := (List.range len).map (base.toNat + ·)

/-! ## Tables over all instructions -/

/-- Which registers an instruction may write: 10_state R21. -/
def writtenRegs : Instr → List RegIdx
  | .ldImm x _ | .addImm x _ | .ldReg x _ | .orReg x _ | .andReg x _ | .xorReg x _ => [x]
  | .addReg x _ | .subReg x _ | .shr x _ | .subnReg x _ | .shl x _ => [x, 0xF]
  | .rnd x _ | .ldVxDT x | .ldVxK x => [x]
  | .drw _ _ _ => [0xF]
  | .loadRegs x => regsUpTo x
  | .cls | .ret | .jp _ | .call _ | .seImm _ _ | .sneImm _ _ | .seReg _ _ | .sneReg _ _ => []
  | .ldI _ | .jpV0 _ | .skp _ | .sknp _ | .ldDTVx _ | .ldSTVx _ | .addI _ | .ldF _ => []
  | .ldB _ | .storeRegs _ => []

/-- Which bytes of memory an instruction may write: 20_memory R42. -/
def writtenBytes (s : State) : Instr → List Nat
  | .ldB _ => addressesFrom s.index 3
  | .storeRegs x => addressesFrom s.index (x.toNat + 1)
  | .cls | .ret | .jp _ | .call _ | .seImm _ _ | .sneImm _ _ | .seReg _ _ | .sneReg _ _ => []
  | .ldImm _ _ | .addImm _ _ | .ldReg _ _ | .orReg _ _ | .andReg _ _ | .xorReg _ _ => []
  | .addReg _ _ | .subReg _ _ | .shr _ _ | .subnReg _ _ | .shl _ _ | .ldI _ | .jpV0 _ => []
  | .rnd _ _ | .drw _ _ _ | .skp _ | .sknp _ | .ldVxDT _ | .ldVxK _ | .ldDTVx _ => []
  | .ldSTVx _ | .addI _ | .ldF _ | .loadRegs _ => []

/-- All that an instruction may write, besides pc: 10_state R21, R25, R27, R28, R29, R31, R32 and
20_memory R42, in one table. -/
def writesOf (s : State) (i : Instr) : Writes where
  regs := writtenRegs i
  bytes := writtenBytes s i
  index := match i with
    | .ldI _ | .addI _ | .ldF _ => true
    | _ => false
  stack := match i with
    | .call _ | .ret => true
    | _ => false
  delayTimer := match i with
    | .ldDTVx _ => true
    | _ => false
  soundTimer := match i with
    | .ldSTVx _ => true
    | _ => false
  gfx := match i with
    | .cls | .drw _ _ _ => true
    | _ => false
  draws := match i with
    | .rnd _ _ => true
    | _ => false

/-- The instruction's own error in this state, from the conditions of 60_exceptions R162, R163, R165:
six instructions have one, the other 28 have none. -/
def ownFault (s : State) : Instr → Option Fault
  | .call _ => if s.sp = 16 then some .stackFault else none
  | .ret => if s.sp = 0 then some .stackFault else none
  | .drw _ _ n => if 1 ≤ n.toNat ∧ s.index.toNat + n.toNat - 1 > 0xFFF then some (bad s) else none
  | .ldB _ => if s.index.toNat + 2 > 0xFFF then some (bad s) else none
  | .storeRegs x | .loadRegs x => if s.index.toNat + x.toNat > 0xFFF then some (bad s) else none
  | .cls | .jp _ | .seImm _ _ | .sneImm _ _ | .seReg _ _ | .sneReg _ _ | .ldI _ | .jpV0 _ => none
  | .ldImm _ _ | .addImm _ _ | .ldReg _ _ | .orReg _ _ | .andReg _ _ | .xorReg _ _ => none
  | .addReg _ _ | .subReg _ _ | .shr _ _ | .subnReg _ _ | .shl _ _ | .rnd _ _ => none
  | .skp _ | .sknp _ | .ldVxDT _ | .ldVxK _ | .ldDTVx _ | .ldSTVx _ | .addI _ | .ldF _ => none
where
  /-- AddressFault(max(I, 0x1000)) (60_exceptions R162). -/
  bad (s : State) : Fault := .addressFault (BitVec.ofNat 16 (max s.index.toNat 0x1000))

/-- The skip condition of the six conditional instructions (40_cycle_engine R86). -/
def skipCondition (s : State) : Instr → Option Bool
  | .seImm x nn => some (decide (s.reg x = nn))
  | .sneImm x nn => some (decide (s.reg x ≠ nn))
  | .seReg x y => some (decide (s.reg x = s.reg y))
  | .sneReg x y => some (decide (s.reg x ≠ s.reg y))
  | .skp x => some (s.keyDown ((s.reg x).setWidth 4))
  | .sknp x => some (!s.keyDown ((s.reg x).setWidth 4))
  | _ => none

/-- The pc after an instruction that succeeds, from the table of 40_cycle_engine R86, as an integer
reduced mod 65536. -/
def pcAfter (s : State) (i : Instr) : Nat :=
  match i with
  | .jp nnn | .call nnn => nnn.toNat
  | .jpV0 nnn => nnn.toNat + (s.reg 0).toNat
  | .ret => ((s.stack.toList.getD (s.sp.val - 1) 0).toNat + 2) % 65536
  | .ldVxK _ => if ∃ k, s.keyDown k = true then (s.pc.toNat + 2) % 65536 else s.pc.toNat
  | i =>
    match skipCondition s i with
    | some true => (s.pc.toNat + 4) % 65536
    | _ => (s.pc.toNat + 2) % 65536

/-! ## Reading words and sprites -/

/-- The word at pc, read byte by byte, high byte first (20_memory R44). -/
def wordAtPc (s : State) : Word :=
  Memory.read s.mem s.pc.toNat ++ Memory.read s.mem (s.pc.toNat + 1)

/-- Some set bit of the sprite of n rows at I, drawn at column cx and row cy, falls on pixel p, each
coordinate taken modulo its axis (44_display R141). -/
def spriteCovers (s : State) (cx cy n p : Nat) : Prop :=
  ∃ row < n, ∃ col < 8,
    (Memory.read s.mem (s.index.toNat + row)).getLsbD (7 - col) = true ∧
    p = (cx + col) % 64 + (cy + row) % 32 * 64

/-! ## Reset and independence -/

/-- The table of 10_state R37, FONT being the model's parameter `font` (log 4). -/
structure IsInitialized (t : State) : Prop where
  regs : ∀ r, t.reg r = 0
  index : t.index = 0
  pc : t.pc = 0x200
  sp : t.sp = 0
  stack : ∀ j : Fin 16, t.stack[j] = 0
  delayTimer : t.delayTimer = 0
  soundTimer : t.soundTimer = 0
  fontBytes : ∀ (a : Nat) (h : a < font.length), a < 80 → Memory.read t.mem a = font[a]
  fontSize : font.length = 80
  otherBytes : ∀ a : Nat, 80 ≤ a → Memory.read t.mem a = 0
  gfx : ∀ p : Nat, Gfx.pixel t.gfx p = false
  key : ∀ k, t.keyDown k = false

/-- The same result with the next state, if there is one, changed by f. -/
def mapNext (f : State → State) : Result → Result
  | .next s => .next (f s)
  | .fault r => .fault r
  | .refused r => .refused r

/-! ## The invariant -/

/-- What holds between any two events of a booted machine: memory in canonical form; pc at most
0x10FE and every return address in use at most 0xFFE, so that pc never wraps (10_state R24); and the
sound tick is only ever output on a cycle that ends with ST = 0 (40_cycle_engine R88). -/
structure State.Inv (s : State) : Prop where
  mem : Memory.wf s.mem
  pc : s.pc.toNat ≤ 0x10FE
  stack : ∀ j (h : j < 16), j < s.sp.val → s.stack[j].toNat ≤ 0xFFE
  tick : s.soundTick = true → s.soundTimer = 0

/-- A cycle of this state succeeds: the safe states are those whose step gives a next state. -/
def State.Safe (s : State) : Prop := ∃ t, step s = .next t

end Sys2Proof.Machine
end

