-- ==== Sys2Proof/Certificates/Slice0/Obligations.lean ====
section
/-!
DEFINITION. The statements for the provers, from the numbered rules of spec/. Each docstring names the
rules; where a clause rests on a decision or an inference that the spec marks as its own, or on a
choice of the model, the docstring says so and names the log entry.
-/

open Sys2Proof Sys2Proof.Machine

/-! ## Encoding (30_encoding) -/

/-- Decoding the bytes of any instruction, whatever follows them, gives the instruction back with
every operand, and the bytes after it: no bit of an encoding is dropped (R60, R61, R64). -/
def Obligations.DecodeOfEncodeIsIdentity : Prop :=
  ∀ (i : Instr) (rest : List Byte), decodeBytes (bytesOfWord (encode i) ++ rest) = .instr i rest

/-- A word that decodes is the encoding of what it decodes to: each supported word has one meaning,
the y of 8xy6 and 8xyE included (R64, R68). -/
def Obligations.EncodeOfDecodeIsIdentity : Prop :=
  ∀ (w : Word) (i : Instr), decodeWord w = some i → encode i = w

/-- Every word either selects exactly one row of the opcode map, that of the instruction it decodes
to, or selects none and does not decode (R64, R65). That every literal digit of a pattern must match
is the spec's decision D10 (log 10). -/
def Obligations.EveryWordSelectsOneRowOrNone : Prop :=
  ∀ w : Word,
    (∃ i, decodeWord w = some i ∧ opcodeMap.filter (OpRow.selects · w) = [i.row]) ∨
    (decodeWord w = none ∧ opcodeMap.filter (OpRow.selects · w) = [])

/-- The words that do not decode are exactly those of the table of R66, a table the spec marks as
derived from R64. -/
def Obligations.UnsupportedWordsAreTheTables : Prop :=
  ∀ w : Word, decodeWord w = none ↔ wordUnsupported w = true

/-- A few words of the spec decode as it says: 600A and 8014 (95 S1), 00E0, 00EE, D015, F533, EAA1 and
the neighbours 00E1, 8008, 5121 that are unsupported (R64, R66). -/
def Obligations.SampleWordsDecodeAsListed : Prop :=
  decodeWord 0x600A = some (.ldImm 0x0 0x0A) ∧ decodeWord 0x8014 = some (.addReg 0x0 0x1) ∧
  decodeWord 0x00E0 = some .cls ∧ decodeWord 0x00EE = some .ret ∧
  decodeWord 0xD015 = some (.drw 0x0 0x1 0x5) ∧ decodeWord 0xF533 = some (.ldB 0x5) ∧
  decodeWord 0xEAA1 = some (.sknp 0xA) ∧
  decodeWord 0x00E1 = none ∧ decodeWord 0x8008 = none ∧ decodeWord 0x5121 = none

/-! ## The cycle (40_cycle_engine, 60_exceptions) -/

/-- The fetched word is mem[pc] * 256 + mem[pc + 1], at an even or an odd pc (20_memory R44, 40 R82).
That an odd pc is legal is the spec's decision D5 (log 8). -/
def Obligations.FetchIsBigEndian : Prop :=
  ∀ s : State, s.pc.toNat ≤ 0xFFE →
    ∃ w, fetchWord s = .ok w ∧
      w.toNat = (Memory.read s.mem s.pc.toNat).toNat * 256 + (Memory.read s.mem (s.pc.toNat + 1)).toNat

/-- When the word at pc decodes to i, a step is exec of i, followed by the timer tick if that gives a
next state, and by nothing if it faults (40 R81). -/
def Obligations.StepRunsTheDecodedInstruction : Prop :=
  ∀ (s : State) (i : Instr), s.pc.toNat ≤ 0xFFE → decodeWord (wordAtPc s) = some i →
    (∀ u, exec i s = .next u → step s = .next (tick u)) ∧
    (∀ f, exec i s = .fault f → step s = .fault f)

/-- R87: at the end of every cycle without an error, whichever instruction it ran, a blocked key wait
included, both timers count down once from the values the instruction left, 0 staying 0, the sound
tick is output exactly when ST goes from 1 to 0, and nothing else changes (but the field the model
keeps that output in, log 1). -/
def Obligations.TimersCountAfterEverySuccess : Prop :=
  ∀ (s u : State) (i : Instr), s.pc.toNat ≤ 0xFFE → decodeWord (wordAtPc s) = some i →
    exec i s = .next u →
    ∃ t, step s = .next t ∧
      t.delayTimer.toNat = u.delayTimer.toNat - 1 ∧ t.soundTimer.toNat = u.soundTimer.toNat - 1 ∧
      ((executeCycle s).soundTick = true ↔ u.soundTimer = 1) ∧
      t = { u with delayTimer := t.delayTimer, soundTimer := t.soundTimer, soundTick := t.soundTick }

/-- R89: a cycle that reports an error leaves every piece of state, the timers included, as it was and
emits no sound tick; it is idempotent on failure: the next cycle reports the same error. -/
def Obligations.ErrorCycleChangesNothing : Prop :=
  ∀ (s : State) (f : Fault), (executeCycle s).error = some f →
    (executeCycle s).state = s ∧ (executeCycle s).soundTick = false ∧
    (executeCycle (executeCycle s).state).error = some f

/-- When a step faults and with what, in the order of checks fetch, decode, instruction; in every
other case it gives a next state, so no step is refused and none reports ProgramTooLarge (60 R160 to
R165). AddressFault is the spec's decision D4, D5 (log 8), the order its D18. -/
def Obligations.StepFaultsExactlyAsListed : Prop :=
  ∀ s : State,
    (0xFFE < s.pc.toNat →
      step s = .fault (.addressFault (BitVec.ofNat 16 (max s.pc.toNat 0x1000)))) ∧
    (s.pc.toNat ≤ 0xFFE → decodeWord (wordAtPc s) = none →
      step s = .fault (.unsupportedOpcode (wordAtPc s))) ∧
    (s.pc.toNat ≤ 0xFFE → ∀ i f, decodeWord (wordAtPc s) = some i → ownFault s i = some f →
      step s = .fault f) ∧
    (s.pc.toNat ≤ 0xFFE → ∀ i, decodeWord (wordAtPc s) = some i → ownFault s i = none →
      ∃ t, step s = .next t)

/-- R86: each instruction that succeeds makes the one pc change of the table, from nnn, the popped
entry, the skip condition or the key mask. -/
def Obligations.EveryPcChangeIsTheTables : Prop :=
  ∀ (i : Instr) (s t : State), exec i s = .next t → t.pc.toNat = pcAfter s i

/-- No instruction changes anything but pc and what the spec lists it as writing: registers (10 R21),
bytes of memory (20 R42), I (10 R27), the stack (10 R25), the timers (10 R28, R29), gfx (10 R31). -/
def Obligations.EveryInstructionKeepsItsFrame : Prop :=
  ∀ (i : Instr) (s t : State), exec i s = .next t → Frame (writesOf s i) s t

/-- The engine never writes the key mask during a cycle (10 R32). -/
def Obligations.CyclesNeverWriteTheKeyMask : Prop :=
  ∀ s t : State, step s = .next t → t.key = s.key

/-- DT falls by one on every successful cycle that is not an Fx15, and stays at 0 (10 R28, 40 R87). -/
def Obligations.DelayTimerFallsUnlessWritten : Prop :=
  ∀ s t : State, step s = .next t → (∀ x, decodeWord (wordAtPc s) ≠ some (.ldDTVx x)) →
    t.delayTimer.toNat = s.delayTimer.toNat - 1

/-! ## Invariants -/

/-- Reset meets the invariant: memory canonical, pc and return addresses in the range 10 R24 gives,
no tick pending. -/
def Obligations.ResetMeetsTheInvariant : Prop := State.Inv State.reset

/-- Every step keeps the invariant: memory stays canonical, pc stays at most 0x10FE and the return
addresses in use at most 0xFFE, so the wrap of pc at 65536 is never reached (10 R24, an inference the
spec marks as derived), and a sound tick is output only with ST at 0 (40 R88). -/
def Obligations.EveryStepKeepsTheInvariant : Prop :=
  ∀ s t : State, State.Inv s → step s = .next t → State.Inv t

/-- Every sequence of host moves, cycles and loads and resets and key writes in any order, keeps the
invariant (60 R181, 70 R196). -/
def Obligations.HostRunsKeepTheInvariant : Prop :=
  ∀ (ms : List HostMove) (s : State), State.Inv s → State.Inv (hostRun ms s)

/-! ## Independence -/

/-- The outcome and the next state do not depend on the random bytes except through Cxnn (40 R93). Which
bytes are drawn is told by the count randomDraws, a field of the model's own (log 2). -/
def Obligations.RandomBytesReachOnlyRnd : Prop :=
  ∀ (i : Instr) (s : State) (n : Nat), (∀ x nn, i ≠ .rnd x nn) →
    exec i { s with randomDraws := n } = mapNext (fun t => { t with randomDraws := n }) (exec i s)

/-- The key mask is read by Ex9E, ExA1 and Fx0A only (10 R32). -/
def Obligations.KeyMaskReachesOnlyKeyInstructions : Prop :=
  ∀ (i : Instr) (s : State) (ks : Vector Bool 16),
    (∀ x, i ≠ .skp x ∧ i ≠ .sknp x ∧ i ≠ .ldVxK x) →
    exec i { s with key := ks } = mapNext (fun t => { t with key := ks }) (exec i s)

/-- No instruction reads the sound timer: with another value in it every instruction does the same,
and Fx18 forgets it (10 R29). -/
def Obligations.SoundTimerIsReadByNoInstruction : Prop :=
  ∀ (i : Instr) (s : State) (b : Byte),
    ((∀ x, i ≠ .ldSTVx x) →
      exec i { s with soundTimer := b } = mapNext (fun t => { t with soundTimer := b }) (exec i s)) ∧
    (∀ x, i = .ldSTVx x → exec i { s with soundTimer := b } = exec i s)

/-- No instruction but Dxyn reads gfx, and 00E0 forgets it (10 R31). -/
def Obligations.FramebufferIsReadOnlyByDraw : Prop :=
  ∀ (i : Instr) (s : State) (g : Gfx),
    ((i ≠ .cls ∧ ∀ x y n, i ≠ .drw x y n) →
      exec i { s with gfx := g } = mapNext (fun t => { t with gfx := g }) (exec i s)) ∧
    (i = .cls → exec i { s with gfx := g } = exec i s)

/-! ## Control flow (41_control_flow) -/

/-- R101: 1nnn decodes, sets pc to nnn, and changes nothing else. -/
def Obligations.JumpSetsPc : Prop :=
  ∀ (nnn : Addr12) (s : State), decodeWord (0x1#4 ++ nnn) = some (.jp nnn) ∧
    ∃ t, exec (.jp nnn) s = .next t ∧ t.pc.toNat = nnn.toNat ∧ Frame {} s t

/-- R107: Bnnn decodes, sets pc to nnn + V0 with no reduction, and changes nothing else. -/
def Obligations.JumpOffsetAddsVZero : Prop :=
  ∀ (nnn : Addr12) (s : State), decodeWord (0xB#4 ++ nnn) = some (.jpV0 nnn) ∧
    ∃ t, exec (.jpV0 nnn) s = .next t ∧ t.pc.toNat = nnn.toNat + (s.reg 0).toNat ∧ Frame {} s t

/-- 2nnn decodes and, with fewer than 16 entries in use, pushes the address of the CALL itself, keeps
every other slot, increments sp and sets pc to nnn (R102). That the address pushed is A is an
inference the spec marks as derived; the stack's form is its decision D7 (log 6). -/
def Obligations.CallPushesItsOwnAddress : Prop :=
  ∀ (nnn : Addr12) (s : State), decodeWord (0x2#4 ++ nnn) = some (.call nnn) ∧
    (s.sp.val < 16 →
      ∃ t, exec (.call nnn) s = .next t ∧ t.pc.toNat = nnn.toNat ∧ t.sp.val = s.sp.val + 1 ∧
        (∀ j : Fin 16, t.stack[j] = if j.val = s.sp.val then s.pc else s.stack[j]) ∧
        Frame { stack := true } s t)

/-- 00EE decodes and, with an entry in use, sets pc to the top entry plus 2, decrements sp and keeps
every slot (R100; the top is stack[sp - 1] by the spec's decision D7, log 6). -/
def Obligations.ReturnPopsTheTopEntry : Prop :=
  decodeWord 0x00EE = some .ret ∧
  ∀ (s : State) (j : Fin 16), s.sp.val = j.val + 1 →
    ∃ t, exec .ret s = .next t ∧ t.pc = s.stack[j] + 2 ∧ t.sp.val = j.val ∧ t.stack = s.stack ∧
      Frame { stack := true } s t

/-- 2nnn with 16 entries and 00EE with none raise StackFault (60 R163). The error has no payload by
the spec's decision D15 (log 3). -/
def Obligations.StackOverflowAndUnderflowFault : Prop :=
  (∀ (nnn : Addr12) (s : State), s.sp.val = 16 → exec (.call nnn) s = .fault .stackFault) ∧
  (∀ s : State, s.sp.val = 0 → exec .ret s = .fault .stackFault)

/-- A return reached with the stack a call left resumes at the instruction after the call, with sp and
the entries in use as before it, whatever else has changed between (R100, R102; log 6). -/
def Obligations.ReturnResumesAfterTheCall : Prop :=
  ∀ (nnn : Addr12) (s : State), s.sp.val < 16 →
    ∃ t, exec (.call nnn) s = .next t ∧
      ∀ t' : State, t'.stack = t.stack → t'.sp = t.sp →
        ∃ u, exec .ret t' = .next u ∧ u.pc = s.pc + 2 ∧ u.sp = s.sp ∧
          (∀ j : Fin 16, j.val < s.sp.val → u.stack[j] = s.stack[j]) ∧ Frame { stack := true } t' u

/-- R103, R104: 3xnn and 4xnn decode and skip one instruction when Vx equals, or does not equal, nn;
no register is written. -/
def Obligations.SkipComparesWithImmediate : Prop :=
  ∀ (x : RegIdx) (nn : Byte) (s : State),
    (decodeWord (0x3#4 ++ x ++ nn) = some (.seImm x nn) ∧
      ∃ t, exec (.seImm x nn) s = .next t ∧
        t.pc = (if s.reg x = nn then s.pc + 4 else s.pc + 2) ∧ Frame {} s t) ∧
    (decodeWord (0x4#4 ++ x ++ nn) = some (.sneImm x nn) ∧
      ∃ t, exec (.sneImm x nn) s = .next t ∧
        t.pc = (if s.reg x ≠ nn then s.pc + 4 else s.pc + 2) ∧ Frame {} s t)

/-- 5xy0 and 9xy0 decode, and skip one instruction when Vx equals, or does not equal, Vy; no register is
written (R105, R106). That 5xyN and 9xyN with N from 1 to F do not decode is the spec's decision D10
(log 10). -/
def Obligations.SkipComparesRegisters : Prop :=
  ∀ (x y : RegIdx) (s : State),
    (decodeWord (0x5#4 ++ x ++ y ++ 0x0#4) = some (.seReg x y) ∧
      (∀ n : BitVec 4, n ≠ 0 → decodeWord (0x5#4 ++ x ++ y ++ n) = none) ∧
      ∃ t, exec (.seReg x y) s = .next t ∧
        t.pc = (if s.reg x = s.reg y then s.pc + 4 else s.pc + 2) ∧ Frame {} s t) ∧
    (decodeWord (0x9#4 ++ x ++ y ++ 0x0#4) = some (.sneReg x y) ∧
      (∀ n : BitVec 4, n ≠ 0 → decodeWord (0x9#4 ++ x ++ y ++ n) = none) ∧
      ∃ t, exec (.sneReg x y) s = .next t ∧
        t.pc = (if s.reg x ≠ s.reg y then s.pc + 4 else s.pc + 2) ∧ Frame {} s t)

/-! ## Load, arithmetic, logic, random (42_load_and_alu) -/

/-- R111: 6xnn decodes, writes nn to Vx and nothing else, pc by 2; VF only if x = F. -/
def Obligations.LoadImmediateWritesVx : Prop :=
  ∀ (x : RegIdx) (nn : Byte) (s : State), decodeWord (0x6#4 ++ x ++ nn) = some (.ldImm x nn) ∧
    ∃ t, exec (.ldImm x nn) s = .next t ∧ t.reg x = nn ∧ t.pc = s.pc + 2 ∧ Frame { regs := [x] } s t

/-- R112: 7xnn decodes, adds nn to Vx modulo 256 with no flag, pc by 2. -/
def Obligations.AddImmediateWrapsWithoutFlag : Prop :=
  ∀ (x : RegIdx) (nn : Byte) (s : State), decodeWord (0x7#4 ++ x ++ nn) = some (.addImm x nn) ∧
    ∃ t, exec (.addImm x nn) s = .next t ∧ (t.reg x).toNat = ((s.reg x).toNat + nn.toNat) % 256 ∧
      t.pc = s.pc + 2 ∧ Frame { regs := [x] } s t

/-- 8xy0 to 8xy3 decode and assign, OR, AND, XOR bit by bit into Vx; VF is not written unless x = F
(R113 to R116). Which sub-opcode is which is an inference the spec marks as derived (R64). -/
def Obligations.AssignAndLogicWriteOnlyVx : Prop :=
  ∀ (x y : RegIdx) (s : State),
    (decodeWord (0x8#4 ++ x ++ y ++ 0x0#4) = some (.ldReg x y) ∧
      ∃ t, exec (.ldReg x y) s = .next t ∧ t.reg x = s.reg y ∧ t.pc = s.pc + 2 ∧
        Frame { regs := [x] } s t) ∧
    (decodeWord (0x8#4 ++ x ++ y ++ 0x1#4) = some (.orReg x y) ∧
      ∃ t, exec (.orReg x y) s = .next t ∧
        (∀ b : Nat, (t.reg x).getLsbD b = ((s.reg x).getLsbD b || (s.reg y).getLsbD b)) ∧
        t.pc = s.pc + 2 ∧ Frame { regs := [x] } s t) ∧
    (decodeWord (0x8#4 ++ x ++ y ++ 0x2#4) = some (.andReg x y) ∧
      ∃ t, exec (.andReg x y) s = .next t ∧
        (∀ b : Nat, (t.reg x).getLsbD b = ((s.reg x).getLsbD b && (s.reg y).getLsbD b)) ∧
        t.pc = s.pc + 2 ∧ Frame { regs := [x] } s t) ∧
    (decodeWord (0x8#4 ++ x ++ y ++ 0x3#4) = some (.xorReg x y) ∧
      ∃ t, exec (.xorReg x y) s = .next t ∧
        (∀ b : Nat, (t.reg x).getLsbD b = ((s.reg x).getLsbD b != (s.reg y).getLsbD b)) ∧
        t.pc = s.pc + 2 ∧ Frame { regs := [x] } s t)

/-- 8xy4 decodes, writes the sum of the start-of-cycle values modulo 256 to Vx and, unless x = F, the
carry to VF; with x = F the result stays in VF (R117). The cases x = F and y = F rest on the spec's
decisions D2, D3 (log 7). -/
def Obligations.AddRegistersWritesSumAndCarry : Prop :=
  ∀ (x y : RegIdx) (s : State), decodeWord (0x8#4 ++ x ++ y ++ 0x4#4) = some (.addReg x y) ∧
    ∃ t, exec (.addReg x y) s = .next t ∧
      (t.reg x).toNat = ((s.reg x).toNat + (s.reg y).toNat) % 256 ∧
      (x ≠ 0xF → t.reg 0xF = if (s.reg x).toNat + (s.reg y).toNat > 255 then 1 else 0) ∧
      t.pc = s.pc + 2 ∧ Frame { regs := [x, 0xF] } s t

/-- 8xy5 and 8xy7 decode, write Vx - Vy and Vy - Vx modulo 256 to Vx and, unless x = F, 1 to VF exactly
when no borrow was needed (R118, R120). The cases x = F and y = F rest on D2, D3 (log 7). -/
def Obligations.SubtractWritesDifferenceAndNoBorrow : Prop :=
  ∀ (x y : RegIdx) (s : State),
    (decodeWord (0x8#4 ++ x ++ y ++ 0x5#4) = some (.subReg x y) ∧
      ∃ t, exec (.subReg x y) s = .next t ∧
        ((t.reg x).toNat : Int) = ((s.reg x).toNat - (s.reg y).toNat : Int) % 256 ∧
        (x ≠ 0xF → t.reg 0xF = if (s.reg x).toNat ≥ (s.reg y).toNat then 1 else 0) ∧
        t.pc = s.pc + 2 ∧ Frame { regs := [x, 0xF] } s t) ∧
    (decodeWord (0x8#4 ++ x ++ y ++ 0x7#4) = some (.subnReg x y) ∧
      ∃ t, exec (.subnReg x y) s = .next t ∧
        ((t.reg x).toNat : Int) = ((s.reg y).toNat - (s.reg x).toNat : Int) % 256 ∧
        (x ≠ 0xF → t.reg 0xF = if (s.reg y).toNat ≥ (s.reg x).toNat then 1 else 0) ∧
        t.pc = s.pc + 2 ∧ Frame { regs := [x, 0xF] } s t)

/-- 8xy6 and 8xyE decode for every y, write Vx div 2 and 2 * Vx mod 256 to Vx, whatever y is, and,
unless x = F, the bit shifted out to VF as 0 or 1 (R119, R121, R68). The case x = F rests on D2, D3
(log 7). -/
def Obligations.ShiftsMoveVxByOne : Prop :=
  ∀ (x y : RegIdx) (s : State),
    (decodeWord (0x8#4 ++ x ++ y ++ 0x6#4) = some (.shr x y) ∧
      ∃ t, exec (.shr x y) s = .next t ∧ (t.reg x).toNat = (s.reg x).toNat / 2 ∧
        (x ≠ 0xF → (t.reg 0xF).toNat = (s.reg x).toNat % 2) ∧
        t.pc = s.pc + 2 ∧ Frame { regs := [x, 0xF] } s t) ∧
    (decodeWord (0x8#4 ++ x ++ y ++ 0xE#4) = some (.shl x y) ∧
      ∃ t, exec (.shl x y) s = .next t ∧ (t.reg x).toNat = (s.reg x).toNat * 2 % 256 ∧
        (x ≠ 0xF → (t.reg 0xF).toNat = (s.reg x).toNat / 128) ∧
        t.pc = s.pc + 2 ∧ Frame { regs := [x, 0xF] } s t)

/-- Cxnn decodes, writes the random byte ANDed with nn to Vx, so that no bit outside nn is set, and
consumes one random byte (R122). The byte is the free value Config.randomByte, counted by a field of
the model's own (D9, log 2); the statement holds whatever it is. -/
def Obligations.RandomIsMaskedByImmediate : Prop :=
  ∀ (x : RegIdx) (nn : Byte) (s : State), decodeWord (0xC#4 ++ x ++ nn) = some (.rnd x nn) ∧
    ∃ t, exec (.rnd x nn) s = .next t ∧ t.reg x = Config.randomByte s.randomDraws &&& nn ∧
      t.reg x &&& ~~~nn = 0 ∧ t.randomDraws = s.randomDraws + 1 ∧ t.pc = s.pc + 2 ∧
      Frame { regs := [x], draws := true } s t

/-! ## Index register and memory (43_index_and_memory) -/

/-- R130: Annn decodes, sets I to nnn zero-extended, pc by 2. -/
def Obligations.LoadIndexZeroExtends : Prop :=
  ∀ (nnn : Addr12) (s : State), decodeWord (0xA#4 ++ nnn) = some (.ldI nnn) ∧
    ∃ t, exec (.ldI nnn) s = .next t ∧ t.index.toNat = nnn.toNat ∧ t.pc = s.pc + 2 ∧
      Frame { index := true } s t

/-- R131: Fx1E decodes, adds Vx to I modulo 65536 with no flag and no range check, pc by 2. -/
def Obligations.AddIndexWrapsWithoutFlag : Prop :=
  ∀ (x : RegIdx) (s : State), decodeWord (0xF#4 ++ x ++ 0x1E#8) = some (.addI x) ∧
    ∃ t, exec (.addI x) s = .next t ∧ t.index.toNat = (s.index.toNat + (s.reg x).toNat) % 65536 ∧
      t.pc = s.pc + 2 ∧ Frame { index := true } s t

/-- R132: Fx29 decodes, sets I to five times the whole byte Vx, unreduced, pc by 2. -/
def Obligations.FontAddressIsFiveTimesVx : Prop :=
  ∀ (x : RegIdx) (s : State), decodeWord (0xF#4 ++ x ++ 0x29#8) = some (.ldF x) ∧
    ∃ t, exec (.ldF x) s = .next t ∧ t.index.toNat = (s.reg x).toNat * 5 ∧ t.pc = s.pc + 2 ∧
      Frame { index := true } s t

/-- Fx33 decodes and, when I + 2 is inside memory, stores the hundreds, tens and ones digit of Vx at I,
I + 1, I + 2 and changes no other byte, no register and not I (R133). The range condition is the
spec's decision D4 (log 8). -/
def Obligations.BcdStoresThreeDigits : Prop :=
  ∀ (x : RegIdx) (s : State), decodeWord (0xF#4 ++ x ++ 0x33#8) = some (.ldB x) ∧
    (Memory.wf s.mem → s.index.toNat + 2 ≤ 0xFFF →
      ∃ t, exec (.ldB x) s = .next t ∧
        (Memory.read t.mem s.index.toNat).toNat = (s.reg x).toNat / 100 ∧
        (Memory.read t.mem (s.index.toNat + 1)).toNat = (s.reg x).toNat / 10 % 10 ∧
        (Memory.read t.mem (s.index.toNat + 2)).toNat = (s.reg x).toNat % 10 ∧
        t.pc = s.pc + 2 ∧ Frame { bytes := addressesFrom s.index 3 } s t)

/-- Fx55 decodes and, when I + x is inside memory, stores V0..Vx at I..I + x and changes no other byte,
no register and not I (R134). The range condition is the spec's decision D4 (log 8). -/
def Obligations.RegisterDumpStoresTheRange : Prop :=
  ∀ (x : RegIdx) (s : State), decodeWord (0xF#4 ++ x ++ 0x55#8) = some (.storeRegs x) ∧
    (Memory.wf s.mem → s.index.toNat + x.toNat ≤ 0xFFF →
      ∃ t, exec (.storeRegs x) s = .next t ∧
        (∀ r : RegIdx, r.toNat ≤ x.toNat → Memory.read t.mem (s.index.toNat + r.toNat) = s.reg r) ∧
        t.pc = s.pc + 2 ∧ Frame { bytes := addressesFrom s.index (x.toNat + 1) } s t)

/-- Fx65 decodes and, when I + x is inside memory, loads V0..Vx from I..I + x and changes no other
register, no byte and not I (R135). The range condition is the spec's decision D4 (log 8). -/
def Obligations.RegisterLoadReadsTheRange : Prop :=
  ∀ (x : RegIdx) (s : State), decodeWord (0xF#4 ++ x ++ 0x65#8) = some (.loadRegs x) ∧
    (s.index.toNat + x.toNat ≤ 0xFFF →
      ∃ t, exec (.loadRegs x) s = .next t ∧
        (∀ r : RegIdx, r.toNat ≤ x.toNat → t.reg r = Memory.read s.mem (s.index.toNat + r.toNat)) ∧
        t.pc = s.pc + 2 ∧ Frame { regs := regsUpTo x } s t)

/-- Fx33, Fx55, Fx65 and Dxyn raise AddressFault with the lowest address above 0xFFF, max(I, 0x1000),
when their range reaches above it, computed without wrap; a fault leaves the state as it was (60
R162, 20 R47, R48). All of it is the spec's decision D4 (log 8). -/
def Obligations.AccessesAboveMemoryFault : Prop :=
  ∀ s : State,
    let f : Result := .fault (.addressFault (BitVec.ofNat 16 (max s.index.toNat 0x1000)))
    (∀ x, s.index.toNat + 2 > 0xFFF → exec (.ldB x) s = f) ∧
    (∀ x : RegIdx, s.index.toNat + x.toNat > 0xFFF → exec (.storeRegs x) s = f) ∧
    (∀ x : RegIdx, s.index.toNat + x.toNat > 0xFFF → exec (.loadRegs x) s = f) ∧
    (∀ (x y : RegIdx) (n : BitVec 4), 1 ≤ n.toNat → s.index.toNat + n.toNat - 1 > 0xFFF →
      exec (.drw x y n) s = f)

/-- A store is seen by the very next fetch: after the cycle of an Fx55 that overwrites the word after
itself, the word at pc is the stored one (20 R54, which the spec marks as derived and as D22). -/
def Obligations.StoreIsSeenByTheNextFetch : Prop :=
  ∀ (s t : State) (x : RegIdx), Memory.wf s.mem → decodeWord (wordAtPc s) = some (.storeRegs x) →
    step s = .next t → s.index.toNat ≤ s.pc.toNat + 2 → s.pc.toNat + 3 ≤ s.index.toNat + x.toNat →
    fetchWord t = .ok
      (s.reg (BitVec.ofNat 4 (s.pc.toNat + 2 - s.index.toNat)) ++
        s.reg (BitVec.ofNat 4 (s.pc.toNat + 3 - s.index.toNat)))

/-- Two memories in canonical form that read alike at every address are the same data: the form the
model keeps memory in loses nothing and adds nothing (20 R40, R50; the form is the model's, log 5). -/
def Obligations.CanonicalMemoriesReadingAlikeAreEqual : Prop :=
  ∀ m m' : Memory, Memory.wf m → Memory.wf m' → (∀ a, Memory.read m a = Memory.read m' a) → m = m'

/-! ## Display (44_display) -/

/-- R140: 00E0 decodes, clears all 2048 pixels, pc by 2, and changes nothing else, VF included. -/
def Obligations.ClearScreenZeroesEveryPixel : Prop :=
  decodeWord 0x00E0 = some .cls ∧
  ∀ s : State, ∃ t, exec .cls s = .next t ∧ (∀ p < 2048, Gfx.pixel t.gfx p = false) ∧
    t.pc = s.pc + 2 ∧ Frame { gfx := true } s t

/-- Dxyn decodes and, when its n rows at I are inside memory or n = 0, flips exactly the pixels its set
sprite bits fall on, each coordinate wrapped, sets VF to 1 if one of them was set and to 0 if none
was, and changes nothing else (R141). Coordinates are start-of-cycle values and the range condition
is as the spec decides, D2 and D4 (log 7, 8). -/
def Obligations.DrawFlipsExactlyTheSprite : Prop :=
  ∀ (x y : RegIdx) (n : BitVec 4) (s : State),
    decodeWord (0xD#4 ++ x ++ y ++ n) = some (.drw x y n) ∧
    (n = 0 ∨ s.index.toNat + n.toNat - 1 ≤ 0xFFF →
      ∃ t, exec (.drw x y n) s = .next t ∧
        (∀ p < 2048, Gfx.pixel t.gfx p ≠ Gfx.pixel s.gfx p ↔
          spriteCovers s (s.reg x).toNat (s.reg y).toNat n.toNat p) ∧
        ((∃ p < 2048, Gfx.pixel s.gfx p = true ∧ Gfx.pixel t.gfx p = false) → t.reg 0xF = 1) ∧
        ((∀ p < 2048, Gfx.pixel s.gfx p = true → Gfx.pixel t.gfx p = true) → t.reg 0xF = 0) ∧
        t.pc = s.pc + 2 ∧ Frame { regs := [0xF], gfx := true } s t)

/-- Drawing the same sprite twice restores gfx, and the second VF is 1 exactly when the first draw left
a pixel set that was clear (R143(a), which the spec marks as derived from R141). x and y are not F,
because the first draw overwrites VF, so that with F the second draw is not at the same place. -/
def Obligations.DrawTwiceRestoresTheScreen : Prop :=
  ∀ (x y : RegIdx) (n : BitVec 4) (s t : State), x ≠ 0xF → y ≠ 0xF → exec (.drw x y n) s = .next t →
    ∃ u, exec (.drw x y n) t = .next u ∧ u.gfx = s.gfx ∧
      (u.reg 0xF = 1 ↔ ∃ p < 2048, Gfx.pixel s.gfx p = false ∧ Gfx.pixel t.gfx p = true) ∧
      (u.reg 0xF = 0 ∨ u.reg 0xF = 1)

/-! ## Keys and timers (45_keys_and_timers) -/

/-- R150, R151: Ex9E and ExA1 decode and skip one instruction when the key named by the low 4 bits of
Vx is, or is not, pressed; no register is written. -/
def Obligations.SkipTestsTheKeyVxNames : Prop :=
  ∀ (x : RegIdx) (s : State) (k : BitVec 4), k.toNat = (s.reg x).toNat % 16 →
    (decodeWord (0xE#4 ++ x ++ 0x9E#8) = some (.skp x) ∧
      ∃ t, exec (.skp x) s = .next t ∧
        t.pc = (if s.keyDown k = true then s.pc + 4 else s.pc + 2) ∧ Frame {} s t) ∧
    (decodeWord (0xE#4 ++ x ++ 0xA1#8) = some (.sknp x) ∧
      ∃ t, exec (.sknp x) s = .next t ∧
        t.pc = (if s.keyDown k = false then s.pc + 4 else s.pc + 2) ∧ Frame {} s t)

/-- R152: Fx07 decodes, reads DT before this cycle's count into Vx, pc by 2, and the cycle ends with DT
one lower, or 0. -/
def Obligations.ReadDelayTimerBeforeTheTick : Prop :=
  ∀ (x : RegIdx) (s : State), decodeWord (0xF#4 ++ x ++ 0x07#8) = some (.ldVxDT x) ∧
    ∃ t, exec (.ldVxDT x) s = .next t ∧ t.reg x = s.delayTimer ∧ t.pc = s.pc + 2 ∧
      (tick t).reg x = s.delayTimer ∧ (tick t).delayTimer.toNat = s.delayTimer.toNat - 1 ∧
      Frame { regs := [x] } s t

/-- Fx0A decodes; with a key down it writes the least pressed key to Vx and moves pc by 2, whether or
not the key was down before; with none down it succeeds and changes nothing, pc included (R153). The
least key is the spec's decision D8 (log 9). -/
def Obligations.WaitForKeyTakesTheLeastOrBlocks : Prop :=
  ∀ (x : RegIdx) (s : State), decodeWord (0xF#4 ++ x ++ 0x0A#8) = some (.ldVxK x) ∧
    (∀ k : BitVec 4, s.keyDown k = true → (∀ j : BitVec 4, j.toNat < k.toNat → s.keyDown j = false) →
      ∃ t, exec (.ldVxK x) s = .next t ∧ (t.reg x).toNat = k.toNat ∧ t.pc = s.pc + 2 ∧
        Frame { regs := [x] } s t) ∧
    ((∀ k, s.keyDown k = false) → exec (.ldVxK x) s = .next s)

/-- R91: the cycle of an Fx0A with no key down succeeds, leaves pc and Vx and everything else but the
timers, which count, and the next cycle fetches the same word. -/
def Obligations.BlockedKeyWaitOnlyTicks : Prop :=
  ∀ (s : State) (x : RegIdx), s.pc.toNat ≤ 0xFFE → decodeWord (wordAtPc s) = some (.ldVxK x) →
    (∀ k, s.keyDown k = false) →
    ∃ t, step s = .next t ∧ t.pc = s.pc ∧ t.reg x = s.reg x ∧
      t.delayTimer.toNat = s.delayTimer.toNat - 1 ∧ t.soundTimer.toNat = s.soundTimer.toNat - 1 ∧
      (t.soundTick = true ↔ s.soundTimer = 1) ∧
      Frame { delayTimer := true, soundTimer := true } s { t with soundTick := s.soundTick } ∧
      fetchWord t = fetchWord s

/-- R154: Fx15 decodes, sets DT to Vx, pc by 2; the tick of the same cycle leaves Vx - 1, or 0. -/
def Obligations.SetDelayTimerThenTick : Prop :=
  ∀ (x : RegIdx) (s : State), decodeWord (0xF#4 ++ x ++ 0x15#8) = some (.ldDTVx x) ∧
    ∃ t, exec (.ldDTVx x) s = .next t ∧ t.delayTimer = s.reg x ∧ t.pc = s.pc + 2 ∧
      (tick t).delayTimer.toNat = (s.reg x).toNat - 1 ∧ Frame { delayTimer := true } s t

/-- Fx18 decodes, sets ST to Vx, pc by 2; the tick of the same cycle leaves Vx - 1, or 0, and emits the
sound tick exactly when Vx is 1, whatever ST was before (R155 and, for the tick, R88, which the spec
marks as derived; log 1). -/
def Obligations.SetSoundTimerThenTick : Prop :=
  ∀ (x : RegIdx) (s : State), decodeWord (0xF#4 ++ x ++ 0x18#8) = some (.ldSTVx x) ∧
    ∃ t, exec (.ldSTVx x) s = .next t ∧ t.soundTimer = s.reg x ∧ t.pc = s.pc + 2 ∧
      (tick t).soundTimer.toNat = (s.reg x).toNat - 1 ∧
      ((tick t).soundTick = true ↔ (s.reg x).toNat = 1) ∧ Frame { soundTimer := true } s t

/-! ## The host's moves (60_exceptions, 70_reset_and_hazards) -/

/-- Reset, and `initialize` from any state, leave the table of 10 R37 and no sound tick (70 R190). The
font is a parameter of the model (log 4): the statement holds whatever its bytes are. -/
def Obligations.InitializeLeavesTheResetTable : Prop :=
  IsInitialized State.reset ∧
  ∀ s : State, IsInitialized (hostInitialize s) ∧ (hostInitialize s).soundTick = false

/-- `load_program` of at most 3584 bytes stores them from 0x200 up and changes nothing else, the font
region included; of more it fails with ProgramTooLarge (70 R195; the rejection is the spec's decision
D13, log 13). -/
def Obligations.LoadProgramStoresOnlyTheProgram : Prop :=
  ∀ (bytes : List Byte) (s : State), Memory.wf s.mem →
    (bytes.length ≤ 3584 →
      ∃ t, hostLoadProgram bytes s = .next t ∧
        (∀ (k : Nat) (h : k < bytes.length), Memory.read t.mem (0x200 + k) = bytes[k]) ∧
        (∀ a : Nat, a < 0x200 ∨ 0x200 + bytes.length ≤ a →
          Memory.read t.mem a = Memory.read s.mem a) ∧
        t = { s with mem := t.mem }) ∧
    (3584 < bytes.length → hostLoadProgram bytes s = .fault .programTooLarge)

/-- The host's key write sets the one key and changes nothing else (60 R178). -/
def Obligations.KeyWriteSetsOneKey : Prop :=
  ∀ (k : BitVec 4) (pressed : Bool) (s : State),
    (∀ j, (hostWriteKey k pressed s).keyDown j = if j = k then pressed else s.keyDown j) ∧
    hostWriteKey k pressed s = { s with key := (hostWriteKey k pressed s).key }
end

