-- ==== Sys2Proof/Laws/Memory.lean ====
section
/-!
SUPPORT. The laws of memory: every operation keeps the canonical form, a read after a write to the
same address gives the byte written, and every other address reads as before.
-/

namespace Sys2Proof.Machine

theorem Memory.wf_nil : Memory.wf [] := ⟨.nil, by simp⟩

@[simp] theorem Memory.read_nil (a : Nat) : Memory.read [] a = Memory.unlisted a := rfl

theorem Memory.wf_tail {c : Host.Cell} {m : Memory} (h : Memory.wf (c :: m)) : Memory.wf m :=
  ⟨(List.pairwise_cons.1 h.1).2, fun d hd => h.2 d (List.mem_cons_of_mem _ hd)⟩

/-- An address below every listed one is unlisted. -/
theorem Memory.read_of_lt_all {m : Memory} {a : Nat} (h : ∀ c ∈ m, a < c.1) :
    Memory.read m a = Memory.unlisted a := by
  induction m with
  | nil => rfl
  | cons c rest ih =>
    have hc := h c (by simp)
    rw [Memory.read, if_neg (by omega), ih fun d hd => h d (List.mem_cons_of_mem _ hd)]

/-- `put` leaves every other address as it was, in any memory. -/
theorem Memory.read_put_ne (m : Memory) {a c : Nat} (b : Byte) (h : c ≠ a) :
    Memory.read (Memory.put m a b) c = Memory.read m c := by
  induction m with
  | nil => simp only [Memory.put]; split <;> simp [Memory.read, h.symm]
  | cons e rest ih =>
    simp only [Memory.put]
    split_ifs with h1 h2 h2 h3
    · rfl
    · simp [Memory.read, h.symm]
    · simp [Memory.read, ← h2, h.symm]
    · simp [Memory.read, ← h2, h.symm]
    · simp [Memory.read, ih]

/-- `put` sets its own address, in a memory of canonical form. -/
theorem Memory.read_put_self {m : Memory} (hm : Memory.wf m) (a : Nat) (b : Byte) :
    Memory.read (Memory.put m a b) a = b := by
  induction m with
  | nil => simp only [Memory.put]; split <;> simp_all [Memory.read]
  | cons e rest ih =>
    have hlt : ∀ c ∈ rest, e.1 < c.1 := (List.pairwise_cons.1 hm.1).1
    simp only [Memory.put]
    split_ifs with h1 h2 h2 h3
    · rw [Memory.read_of_lt_all, h2]
      intro c hc
      rcases List.mem_cons.1 hc with rfl | hc
      · exact h1
      · exact h1.trans (hlt c hc)
    · simp [Memory.read]
    · subst h2
      rw [Memory.read_of_lt_all hlt, h3]
    · simp [Memory.read]
    · rw [Memory.read, if_neg (fun h => h2 h.symm), ih (Memory.wf_tail hm)]

/-- The entries of `put m a b` are entries of m, or the pair just written. -/
theorem Memory.mem_put {m : Memory} {a : Nat} {b : Byte} {c : Host.Cell}
    (h : c ∈ Memory.put m a b) : c ∈ m ∨ (c = (a, b) ∧ b ≠ Memory.unlisted a) := by
  induction m with
  | nil => simp only [Memory.put] at h; split at h <;> simp_all
  | cons e rest ih =>
    simp only [Memory.put] at h
    split_ifs at h with h1 h2 h2 h3
    · exact .inl h
    · rcases List.mem_cons.1 h with h | h
      · exact .inr ⟨h, h2⟩
      · exact .inl h
    · exact .inl (List.mem_cons_of_mem _ h)
    · rcases List.mem_cons.1 h with h | h
      · exact .inr ⟨h, h3⟩
      · exact .inl (List.mem_cons_of_mem _ h)
    · rcases List.mem_cons.1 h with h | h
      · exact .inl (h ▸ List.mem_cons_self)
      · exact (ih h).imp_left (List.mem_cons_of_mem _)

theorem Memory.put_wf {m : Memory} (hm : Memory.wf m) {a : Nat} (ha : a < Config.memSize)
    (b : Byte) : Memory.wf (Memory.put m a b) := by
  refine ⟨?_, fun c hc => ?_⟩
  · induction m with
    | nil => simp only [Memory.put]; split <;> simp
    | cons e rest ih =>
      obtain ⟨hlt, hrest⟩ := List.pairwise_cons.1 hm.1
      simp only [Memory.put]
      split_ifs with h1 h2 h2 h3
      · exact hm.1
      · refine List.pairwise_cons.2 ⟨fun c hc => ?_, hm.1⟩
        rcases List.mem_cons.1 hc with rfl | hc
        · exact h1
        · exact h1.trans (hlt c hc)
      · exact hrest
      · exact List.pairwise_cons.2 ⟨fun c hc => h2 ▸ hlt c hc, hrest⟩
      · refine List.pairwise_cons.2 ⟨fun c hc => ?_, ih (Memory.wf_tail hm)⟩
        rcases Memory.mem_put hc with hc | ⟨rfl, -⟩
        · exact hlt c hc
        · show e.1 < a; omega
  · rcases Memory.mem_put hc with hc | ⟨rfl, hb⟩
    · exact hm.2 c hc
    · exact ⟨ha, hb⟩

theorem Memory.write_wf {m : Memory} (hm : Memory.wf m) (a : Nat) (b : Byte) :
    Memory.wf (Memory.write m a b) := by
  unfold Memory.write; split
  · exact Memory.put_wf hm ‹_› b
  · exact hm

theorem Memory.writeBytes_wf {m : Memory} (hm : Memory.wf m) (a : Nat) (bs : List Byte) :
    Memory.wf (Memory.writeBytes m a bs) := by
  induction bs generalizing m a with
  | nil => exact hm
  | cons b bs ih => exact ih (Memory.write_wf hm a b) (a + 1)

theorem Memory.read_write_ne (m : Memory) {a c : Nat} (b : Byte) (h : c ≠ a) :
    Memory.read (Memory.write m a b) c = Memory.read m c := by
  unfold Memory.write; split
  · exact Memory.read_put_ne m b h
  · rfl

theorem Memory.read_write_self {m : Memory} (hm : Memory.wf m) {a : Nat} (ha : a < Config.memSize)
    (b : Byte) : Memory.read (Memory.write m a b) a = b := by
  rw [Memory.write, if_pos ha, Memory.read_put_self hm]

/-- Outside the bytes stored, memory reads as before, in any memory. -/
theorem Memory.read_writeBytes_outside (m : Memory) (a : Nat) (bs : List Byte) {c : Nat}
    (h : c < a ∨ a + bs.length ≤ c) :
    Memory.read (Memory.writeBytes m a bs) c = Memory.read m c := by
  induction bs generalizing m a with
  | nil => rfl
  | cons b bs ih =>
    simp only [List.length_cons] at h
    rw [Memory.writeBytes, ih _ _ (by omega), Memory.read_write_ne _ _ (by omega)]

/-- Byte k of a list stored at a is at a + k, in a memory of canonical form. -/
theorem Memory.read_writeBytes_inside {m : Memory} (hm : Memory.wf m) (a : Nat) (bs : List Byte)
    (h : a + bs.length ≤ Config.memSize) {k : Nat} (hk : k < bs.length) :
    Memory.read (Memory.writeBytes m a bs) (a + k) = bs[k] := by
  induction bs generalizing m a k with
  | nil => simp at hk
  | cons b bs ih =>
    simp only [List.length_cons] at h hk
    cases k with
    | zero =>
      rw [Memory.writeBytes, Memory.read_writeBytes_outside _ _ _ (by omega), Nat.add_zero,
        Memory.read_write_self hm (by omega)]
      rfl
    | succ k =>
      rw [Memory.writeBytes, show a + (k + 1) = a + 1 + k by omega,
        ih (Memory.write_wf hm a b) _ (by omega) (by omega)]
      rfl

@[simp] theorem Memory.readBytes_length (m : Memory) (a n : Nat) :
    (Memory.readBytes m a n).length = n := by
  induction n generalizing a with
  | zero => rfl
  | succ n ih => simp [Memory.readBytes, ih]

/-- Byte k of a run read at a is the byte at a + k. -/
theorem Memory.readBytes_getElem (m : Memory) (a n : Nat) {k : Nat}
    (h : k < (Memory.readBytes m a n).length) :
    (Memory.readBytes m a n)[k] = Memory.read m (a + k) := by
  induction n generalizing a k with
  | zero => simp at h
  | succ n ih =>
    cases k with
    | zero => rfl
    | succ k =>
      simp only [Memory.readBytes, List.getElem_cons_succ]
      rw [ih, show a + 1 + k = a + (k + 1) by omega]

end Sys2Proof.Machine
end

