-- ==== Sys2Proof/Laws/State.lean ====
section
/-!
SUPPORT. What each named update of the state does to each field: one lemma per field per update, so
that no later proof unfolds a record update.
-/

namespace Sys2Proof.Machine

variable (s : State)

/-! ## setReg -/

@[simp] theorem State.setReg_v (x : RegIdx) (b : Byte) : (s.setReg x b).v = s.v.set x.toNat b x.isLt := rfl
@[simp] theorem State.setReg_index (x : RegIdx) (b : Byte) : (s.setReg x b).index = s.index := rfl
@[simp] theorem State.setReg_pc (x : RegIdx) (b : Byte) : (s.setReg x b).pc = s.pc := rfl
@[simp] theorem State.setReg_stack (x : RegIdx) (b : Byte) : (s.setReg x b).stack = s.stack := rfl
@[simp] theorem State.setReg_sp (x : RegIdx) (b : Byte) : (s.setReg x b).sp = s.sp := rfl
@[simp] theorem State.setReg_delayTimer (x : RegIdx) (b : Byte) : (s.setReg x b).delayTimer = s.delayTimer := rfl
@[simp] theorem State.setReg_soundTimer (x : RegIdx) (b : Byte) : (s.setReg x b).soundTimer = s.soundTimer := rfl
@[simp] theorem State.setReg_mem (x : RegIdx) (b : Byte) : (s.setReg x b).mem = s.mem := rfl
@[simp] theorem State.setReg_gfx (x : RegIdx) (b : Byte) : (s.setReg x b).gfx = s.gfx := rfl
@[simp] theorem State.setReg_key (x : RegIdx) (b : Byte) : (s.setReg x b).key = s.key := rfl
@[simp] theorem State.setReg_randomDraws (x : RegIdx) (b : Byte) : (s.setReg x b).randomDraws = s.randomDraws := rfl
@[simp] theorem State.setReg_soundTick (x : RegIdx) (b : Byte) : (s.setReg x b).soundTick = s.soundTick := rfl
@[simp] theorem State.setReg_keyDown (x : RegIdx) (b : Byte) (j : BitVec 4) : (s.setReg x b).keyDown j = s.keyDown j := rfl

/-! ## setIndex -/

@[simp] theorem State.setIndex_v (w : Word) : (s.setIndex w).v = s.v := rfl
@[simp] theorem State.setIndex_index (w : Word) : (s.setIndex w).index = w := rfl
@[simp] theorem State.setIndex_pc (w : Word) : (s.setIndex w).pc = s.pc := rfl
@[simp] theorem State.setIndex_stack (w : Word) : (s.setIndex w).stack = s.stack := rfl
@[simp] theorem State.setIndex_sp (w : Word) : (s.setIndex w).sp = s.sp := rfl
@[simp] theorem State.setIndex_delayTimer (w : Word) : (s.setIndex w).delayTimer = s.delayTimer := rfl
@[simp] theorem State.setIndex_soundTimer (w : Word) : (s.setIndex w).soundTimer = s.soundTimer := rfl
@[simp] theorem State.setIndex_mem (w : Word) : (s.setIndex w).mem = s.mem := rfl
@[simp] theorem State.setIndex_gfx (w : Word) : (s.setIndex w).gfx = s.gfx := rfl
@[simp] theorem State.setIndex_key (w : Word) : (s.setIndex w).key = s.key := rfl
@[simp] theorem State.setIndex_randomDraws (w : Word) : (s.setIndex w).randomDraws = s.randomDraws := rfl
@[simp] theorem State.setIndex_soundTick (w : Word) : (s.setIndex w).soundTick = s.soundTick := rfl
@[simp] theorem State.setIndex_reg (w : Word) (r : RegIdx) : (s.setIndex w).reg r = s.reg r := rfl
@[simp] theorem State.setIndex_keyDown (w : Word) (j : BitVec 4) : (s.setIndex w).keyDown j = s.keyDown j := rfl

/-! ## setMem -/

@[simp] theorem State.setMem_v (m : Memory) : (s.setMem m).v = s.v := rfl
@[simp] theorem State.setMem_index (m : Memory) : (s.setMem m).index = s.index := rfl
@[simp] theorem State.setMem_pc (m : Memory) : (s.setMem m).pc = s.pc := rfl
@[simp] theorem State.setMem_stack (m : Memory) : (s.setMem m).stack = s.stack := rfl
@[simp] theorem State.setMem_sp (m : Memory) : (s.setMem m).sp = s.sp := rfl
@[simp] theorem State.setMem_delayTimer (m : Memory) : (s.setMem m).delayTimer = s.delayTimer := rfl
@[simp] theorem State.setMem_soundTimer (m : Memory) : (s.setMem m).soundTimer = s.soundTimer := rfl
@[simp] theorem State.setMem_mem (m : Memory) : (s.setMem m).mem = m := rfl
@[simp] theorem State.setMem_gfx (m : Memory) : (s.setMem m).gfx = s.gfx := rfl
@[simp] theorem State.setMem_key (m : Memory) : (s.setMem m).key = s.key := rfl
@[simp] theorem State.setMem_randomDraws (m : Memory) : (s.setMem m).randomDraws = s.randomDraws := rfl
@[simp] theorem State.setMem_soundTick (m : Memory) : (s.setMem m).soundTick = s.soundTick := rfl
@[simp] theorem State.setMem_reg (m : Memory) (r : RegIdx) : (s.setMem m).reg r = s.reg r := rfl
@[simp] theorem State.setMem_keyDown (m : Memory) (j : BitVec 4) : (s.setMem m).keyDown j = s.keyDown j := rfl

/-! ## setGfx -/

@[simp] theorem State.setGfx_v (g : Gfx) : (s.setGfx g).v = s.v := rfl
@[simp] theorem State.setGfx_index (g : Gfx) : (s.setGfx g).index = s.index := rfl
@[simp] theorem State.setGfx_pc (g : Gfx) : (s.setGfx g).pc = s.pc := rfl
@[simp] theorem State.setGfx_stack (g : Gfx) : (s.setGfx g).stack = s.stack := rfl
@[simp] theorem State.setGfx_sp (g : Gfx) : (s.setGfx g).sp = s.sp := rfl
@[simp] theorem State.setGfx_delayTimer (g : Gfx) : (s.setGfx g).delayTimer = s.delayTimer := rfl
@[simp] theorem State.setGfx_soundTimer (g : Gfx) : (s.setGfx g).soundTimer = s.soundTimer := rfl
@[simp] theorem State.setGfx_mem (g : Gfx) : (s.setGfx g).mem = s.mem := rfl
@[simp] theorem State.setGfx_gfx (g : Gfx) : (s.setGfx g).gfx = g := rfl
@[simp] theorem State.setGfx_key (g : Gfx) : (s.setGfx g).key = s.key := rfl
@[simp] theorem State.setGfx_randomDraws (g : Gfx) : (s.setGfx g).randomDraws = s.randomDraws := rfl
@[simp] theorem State.setGfx_soundTick (g : Gfx) : (s.setGfx g).soundTick = s.soundTick := rfl
@[simp] theorem State.setGfx_reg (g : Gfx) (r : RegIdx) : (s.setGfx g).reg r = s.reg r := rfl
@[simp] theorem State.setGfx_keyDown (g : Gfx) (j : BitVec 4) : (s.setGfx g).keyDown j = s.keyDown j := rfl

/-! ## setDelayTimer -/

@[simp] theorem State.setDelayTimer_v (b : Byte) : (s.setDelayTimer b).v = s.v := rfl
@[simp] theorem State.setDelayTimer_index (b : Byte) : (s.setDelayTimer b).index = s.index := rfl
@[simp] theorem State.setDelayTimer_pc (b : Byte) : (s.setDelayTimer b).pc = s.pc := rfl
@[simp] theorem State.setDelayTimer_stack (b : Byte) : (s.setDelayTimer b).stack = s.stack := rfl
@[simp] theorem State.setDelayTimer_sp (b : Byte) : (s.setDelayTimer b).sp = s.sp := rfl
@[simp] theorem State.setDelayTimer_delayTimer (b : Byte) : (s.setDelayTimer b).delayTimer = b := rfl
@[simp] theorem State.setDelayTimer_soundTimer (b : Byte) : (s.setDelayTimer b).soundTimer = s.soundTimer := rfl
@[simp] theorem State.setDelayTimer_mem (b : Byte) : (s.setDelayTimer b).mem = s.mem := rfl
@[simp] theorem State.setDelayTimer_gfx (b : Byte) : (s.setDelayTimer b).gfx = s.gfx := rfl
@[simp] theorem State.setDelayTimer_key (b : Byte) : (s.setDelayTimer b).key = s.key := rfl
@[simp] theorem State.setDelayTimer_randomDraws (b : Byte) : (s.setDelayTimer b).randomDraws = s.randomDraws := rfl
@[simp] theorem State.setDelayTimer_soundTick (b : Byte) : (s.setDelayTimer b).soundTick = s.soundTick := rfl
@[simp] theorem State.setDelayTimer_reg (b : Byte) (r : RegIdx) : (s.setDelayTimer b).reg r = s.reg r := rfl
@[simp] theorem State.setDelayTimer_keyDown (b : Byte) (j : BitVec 4) : (s.setDelayTimer b).keyDown j = s.keyDown j := rfl

/-! ## setSoundTimer -/

@[simp] theorem State.setSoundTimer_v (b : Byte) : (s.setSoundTimer b).v = s.v := rfl
@[simp] theorem State.setSoundTimer_index (b : Byte) : (s.setSoundTimer b).index = s.index := rfl
@[simp] theorem State.setSoundTimer_pc (b : Byte) : (s.setSoundTimer b).pc = s.pc := rfl
@[simp] theorem State.setSoundTimer_stack (b : Byte) : (s.setSoundTimer b).stack = s.stack := rfl
@[simp] theorem State.setSoundTimer_sp (b : Byte) : (s.setSoundTimer b).sp = s.sp := rfl
@[simp] theorem State.setSoundTimer_delayTimer (b : Byte) : (s.setSoundTimer b).delayTimer = s.delayTimer := rfl
@[simp] theorem State.setSoundTimer_soundTimer (b : Byte) : (s.setSoundTimer b).soundTimer = b := rfl
@[simp] theorem State.setSoundTimer_mem (b : Byte) : (s.setSoundTimer b).mem = s.mem := rfl
@[simp] theorem State.setSoundTimer_gfx (b : Byte) : (s.setSoundTimer b).gfx = s.gfx := rfl
@[simp] theorem State.setSoundTimer_key (b : Byte) : (s.setSoundTimer b).key = s.key := rfl
@[simp] theorem State.setSoundTimer_randomDraws (b : Byte) : (s.setSoundTimer b).randomDraws = s.randomDraws := rfl
@[simp] theorem State.setSoundTimer_soundTick (b : Byte) : (s.setSoundTimer b).soundTick = s.soundTick := rfl
@[simp] theorem State.setSoundTimer_reg (b : Byte) (r : RegIdx) : (s.setSoundTimer b).reg r = s.reg r := rfl
@[simp] theorem State.setSoundTimer_keyDown (b : Byte) (j : BitVec 4) : (s.setSoundTimer b).keyDown j = s.keyDown j := rfl

/-! ## setSoundTick -/

@[simp] theorem State.setSoundTick_v (c : Bool) : (s.setSoundTick c).v = s.v := rfl
@[simp] theorem State.setSoundTick_index (c : Bool) : (s.setSoundTick c).index = s.index := rfl
@[simp] theorem State.setSoundTick_pc (c : Bool) : (s.setSoundTick c).pc = s.pc := rfl
@[simp] theorem State.setSoundTick_stack (c : Bool) : (s.setSoundTick c).stack = s.stack := rfl
@[simp] theorem State.setSoundTick_sp (c : Bool) : (s.setSoundTick c).sp = s.sp := rfl
@[simp] theorem State.setSoundTick_delayTimer (c : Bool) : (s.setSoundTick c).delayTimer = s.delayTimer := rfl
@[simp] theorem State.setSoundTick_soundTimer (c : Bool) : (s.setSoundTick c).soundTimer = s.soundTimer := rfl
@[simp] theorem State.setSoundTick_mem (c : Bool) : (s.setSoundTick c).mem = s.mem := rfl
@[simp] theorem State.setSoundTick_gfx (c : Bool) : (s.setSoundTick c).gfx = s.gfx := rfl
@[simp] theorem State.setSoundTick_key (c : Bool) : (s.setSoundTick c).key = s.key := rfl
@[simp] theorem State.setSoundTick_randomDraws (c : Bool) : (s.setSoundTick c).randomDraws = s.randomDraws := rfl
@[simp] theorem State.setSoundTick_soundTick (c : Bool) : (s.setSoundTick c).soundTick = c := rfl
@[simp] theorem State.setSoundTick_reg (c : Bool) (r : RegIdx) : (s.setSoundTick c).reg r = s.reg r := rfl
@[simp] theorem State.setSoundTick_keyDown (c : Bool) (j : BitVec 4) : (s.setSoundTick c).keyDown j = s.keyDown j := rfl

/-! ## drawn -/

@[simp] theorem State.drawn_v : s.drawn.v = s.v := rfl
@[simp] theorem State.drawn_index : s.drawn.index = s.index := rfl
@[simp] theorem State.drawn_pc : s.drawn.pc = s.pc := rfl
@[simp] theorem State.drawn_stack : s.drawn.stack = s.stack := rfl
@[simp] theorem State.drawn_sp : s.drawn.sp = s.sp := rfl
@[simp] theorem State.drawn_delayTimer : s.drawn.delayTimer = s.delayTimer := rfl
@[simp] theorem State.drawn_soundTimer : s.drawn.soundTimer = s.soundTimer := rfl
@[simp] theorem State.drawn_mem : s.drawn.mem = s.mem := rfl
@[simp] theorem State.drawn_gfx : s.drawn.gfx = s.gfx := rfl
@[simp] theorem State.drawn_key : s.drawn.key = s.key := rfl
@[simp] theorem State.drawn_randomDraws : s.drawn.randomDraws = s.randomDraws + 1 := rfl
@[simp] theorem State.drawn_soundTick : s.drawn.soundTick = s.soundTick := rfl
@[simp] theorem State.drawn_reg (r : RegIdx) : s.drawn.reg r = s.reg r := rfl
@[simp] theorem State.drawn_keyDown (j : BitVec 4) : s.drawn.keyDown j = s.keyDown j := rfl

/-! ## setKey -/

@[simp] theorem State.setKey_v (k : BitVec 4) (c : Bool) : (s.setKey k c).v = s.v := rfl
@[simp] theorem State.setKey_index (k : BitVec 4) (c : Bool) : (s.setKey k c).index = s.index := rfl
@[simp] theorem State.setKey_pc (k : BitVec 4) (c : Bool) : (s.setKey k c).pc = s.pc := rfl
@[simp] theorem State.setKey_stack (k : BitVec 4) (c : Bool) : (s.setKey k c).stack = s.stack := rfl
@[simp] theorem State.setKey_sp (k : BitVec 4) (c : Bool) : (s.setKey k c).sp = s.sp := rfl
@[simp] theorem State.setKey_delayTimer (k : BitVec 4) (c : Bool) : (s.setKey k c).delayTimer = s.delayTimer := rfl
@[simp] theorem State.setKey_soundTimer (k : BitVec 4) (c : Bool) : (s.setKey k c).soundTimer = s.soundTimer := rfl
@[simp] theorem State.setKey_mem (k : BitVec 4) (c : Bool) : (s.setKey k c).mem = s.mem := rfl
@[simp] theorem State.setKey_gfx (k : BitVec 4) (c : Bool) : (s.setKey k c).gfx = s.gfx := rfl
@[simp] theorem State.setKey_key (k : BitVec 4) (c : Bool) : (s.setKey k c).key = s.key.set k.toNat c k.isLt := rfl
@[simp] theorem State.setKey_randomDraws (k : BitVec 4) (c : Bool) : (s.setKey k c).randomDraws = s.randomDraws := rfl
@[simp] theorem State.setKey_soundTick (k : BitVec 4) (c : Bool) : (s.setKey k c).soundTick = s.soundTick := rfl
@[simp] theorem State.setKey_reg (k : BitVec 4) (c : Bool) (r : RegIdx) : (s.setKey k c).reg r = s.reg r := rfl

/-! ## jump -/

@[simp] theorem State.jump_v (w : Word) : (s.jump w).v = s.v := rfl
@[simp] theorem State.jump_index (w : Word) : (s.jump w).index = s.index := rfl
@[simp] theorem State.jump_pc (w : Word) : (s.jump w).pc = w := rfl
@[simp] theorem State.jump_stack (w : Word) : (s.jump w).stack = s.stack := rfl
@[simp] theorem State.jump_sp (w : Word) : (s.jump w).sp = s.sp := rfl
@[simp] theorem State.jump_delayTimer (w : Word) : (s.jump w).delayTimer = s.delayTimer := rfl
@[simp] theorem State.jump_soundTimer (w : Word) : (s.jump w).soundTimer = s.soundTimer := rfl
@[simp] theorem State.jump_mem (w : Word) : (s.jump w).mem = s.mem := rfl
@[simp] theorem State.jump_gfx (w : Word) : (s.jump w).gfx = s.gfx := rfl
@[simp] theorem State.jump_key (w : Word) : (s.jump w).key = s.key := rfl
@[simp] theorem State.jump_randomDraws (w : Word) : (s.jump w).randomDraws = s.randomDraws := rfl
@[simp] theorem State.jump_soundTick (w : Word) : (s.jump w).soundTick = s.soundTick := rfl
@[simp] theorem State.jump_reg (w : Word) (r : RegIdx) : (s.jump w).reg r = s.reg r := rfl
@[simp] theorem State.jump_keyDown (w : Word) (j : BitVec 4) : (s.jump w).keyDown j = s.keyDown j := rfl

/-! ## advance -/

@[simp] theorem State.advance_v : s.advance.v = s.v := rfl
@[simp] theorem State.advance_index : s.advance.index = s.index := rfl
@[simp] theorem State.advance_pc : s.advance.pc = s.pc + 2 := rfl
@[simp] theorem State.advance_stack : s.advance.stack = s.stack := rfl
@[simp] theorem State.advance_sp : s.advance.sp = s.sp := rfl
@[simp] theorem State.advance_delayTimer : s.advance.delayTimer = s.delayTimer := rfl
@[simp] theorem State.advance_soundTimer : s.advance.soundTimer = s.soundTimer := rfl
@[simp] theorem State.advance_mem : s.advance.mem = s.mem := rfl
@[simp] theorem State.advance_gfx : s.advance.gfx = s.gfx := rfl
@[simp] theorem State.advance_key : s.advance.key = s.key := rfl
@[simp] theorem State.advance_randomDraws : s.advance.randomDraws = s.randomDraws := rfl
@[simp] theorem State.advance_soundTick : s.advance.soundTick = s.soundTick := rfl
@[simp] theorem State.advance_reg (r : RegIdx) : s.advance.reg r = s.reg r := rfl
@[simp] theorem State.advance_keyDown (j : BitVec 4) : s.advance.keyDown j = s.keyDown j := rfl

/-! ## skip -/

@[simp] theorem State.skip_v : s.skip.v = s.v := rfl
@[simp] theorem State.skip_index : s.skip.index = s.index := rfl
@[simp] theorem State.skip_pc : s.skip.pc = s.pc + 4 := rfl
@[simp] theorem State.skip_stack : s.skip.stack = s.stack := rfl
@[simp] theorem State.skip_sp : s.skip.sp = s.sp := rfl
@[simp] theorem State.skip_delayTimer : s.skip.delayTimer = s.delayTimer := rfl
@[simp] theorem State.skip_soundTimer : s.skip.soundTimer = s.soundTimer := rfl
@[simp] theorem State.skip_mem : s.skip.mem = s.mem := rfl
@[simp] theorem State.skip_gfx : s.skip.gfx = s.gfx := rfl
@[simp] theorem State.skip_key : s.skip.key = s.key := rfl
@[simp] theorem State.skip_randomDraws : s.skip.randomDraws = s.randomDraws := rfl
@[simp] theorem State.skip_soundTick : s.skip.soundTick = s.soundTick := rfl
@[simp] theorem State.skip_reg (r : RegIdx) : s.skip.reg r = s.reg r := rfl
@[simp] theorem State.skip_keyDown (j : BitVec 4) : s.skip.keyDown j = s.keyDown j := rfl

/-! ## setFlag -/

@[simp] theorem State.setFlag_v (b : Byte) : (s.setFlag b).v = s.v.set vf.toNat b vf.isLt := rfl
@[simp] theorem State.setFlag_index (b : Byte) : (s.setFlag b).index = s.index := rfl
@[simp] theorem State.setFlag_pc (b : Byte) : (s.setFlag b).pc = s.pc := rfl
@[simp] theorem State.setFlag_stack (b : Byte) : (s.setFlag b).stack = s.stack := rfl
@[simp] theorem State.setFlag_sp (b : Byte) : (s.setFlag b).sp = s.sp := rfl
@[simp] theorem State.setFlag_delayTimer (b : Byte) : (s.setFlag b).delayTimer = s.delayTimer := rfl
@[simp] theorem State.setFlag_soundTimer (b : Byte) : (s.setFlag b).soundTimer = s.soundTimer := rfl
@[simp] theorem State.setFlag_mem (b : Byte) : (s.setFlag b).mem = s.mem := rfl
@[simp] theorem State.setFlag_gfx (b : Byte) : (s.setFlag b).gfx = s.gfx := rfl
@[simp] theorem State.setFlag_key (b : Byte) : (s.setFlag b).key = s.key := rfl
@[simp] theorem State.setFlag_randomDraws (b : Byte) : (s.setFlag b).randomDraws = s.randomDraws := rfl
@[simp] theorem State.setFlag_soundTick (b : Byte) : (s.setFlag b).soundTick = s.soundTick := rfl
@[simp] theorem State.setFlag_keyDown (b : Byte) (j : BitVec 4) : (s.setFlag b).keyDown j = s.keyDown j := rfl

/-! ## Reading what was written -/

theorem State.setReg_reg (x r : RegIdx) (b : Byte) :
    (s.setReg x b).reg r = if r = x then b else s.reg r := by
  simp only [State.reg, State.setReg, Vector.getElem_set, ← BitVec.toNat_inj, eq_comm]

@[simp] theorem State.setReg_reg_self (x : RegIdx) (b : Byte) : (s.setReg x b).reg x = b := by
  simp [State.setReg_reg]

theorem State.setReg_reg_ne {x r : RegIdx} (b : Byte) (h : r ≠ x) :
    (s.setReg x b).reg r = s.reg r := by simp [State.setReg_reg, h]

/-- A flag-writing instruction's register file: the result in Vx, else the flag in VF, else as it was
(40_cycle_engine R85). -/
theorem State.setFlagThenReg_reg (f b : Byte) (x r : RegIdx) :
    (s.setFlagThenReg f x b).reg r = if r = x then b else if r = vf then f else s.reg r := by
  simp [State.setFlagThenReg, State.setFlag, State.setReg_reg]

theorem State.setKey_keyDown (k j : BitVec 4) (c : Bool) :
    (s.setKey k c).keyDown j = if j = k then c else s.keyDown j := by
  simp only [State.keyDown, State.setKey, Vector.getElem_set, ← BitVec.toNat_inj, eq_comm]

/-- Two register files that answer alike for every register are the same data. -/
theorem State.v_ext {s t : State} (h : ∀ r, s.reg r = t.reg r) : s.v = t.v := by
  refine Vector.ext fun i hi => ?_
  have hr := h (BitVec.ofNat 4 i)
  simpa [State.reg, Nat.mod_eq_of_lt hi] using hr

/-! ## Skips and the timer tick -/

@[simp] theorem State.skipIf_v (c : Bool) : (s.skipIf c).v = s.v := by cases c <;> rfl
@[simp] theorem State.skipIf_index (c : Bool) : (s.skipIf c).index = s.index := by cases c <;> rfl
@[simp] theorem State.skipIf_pc (c : Bool) : (s.skipIf c).pc = if c then s.pc + 4 else s.pc + 2 := by
  cases c <;> rfl
@[simp] theorem State.skipIf_stack (c : Bool) : (s.skipIf c).stack = s.stack := by cases c <;> rfl
@[simp] theorem State.skipIf_sp (c : Bool) : (s.skipIf c).sp = s.sp := by cases c <;> rfl
@[simp] theorem State.skipIf_delayTimer (c : Bool) : (s.skipIf c).delayTimer = s.delayTimer := by cases c <;> rfl
@[simp] theorem State.skipIf_soundTimer (c : Bool) : (s.skipIf c).soundTimer = s.soundTimer := by cases c <;> rfl
@[simp] theorem State.skipIf_mem (c : Bool) : (s.skipIf c).mem = s.mem := by cases c <;> rfl
@[simp] theorem State.skipIf_gfx (c : Bool) : (s.skipIf c).gfx = s.gfx := by cases c <;> rfl
@[simp] theorem State.skipIf_key (c : Bool) : (s.skipIf c).key = s.key := by cases c <;> rfl
@[simp] theorem State.skipIf_randomDraws (c : Bool) : (s.skipIf c).randomDraws = s.randomDraws := by cases c <;> rfl
@[simp] theorem State.skipIf_soundTick (c : Bool) : (s.skipIf c).soundTick = s.soundTick := by cases c <;> rfl
@[simp] theorem State.skipIf_reg (c : Bool) (r : RegIdx) : (s.skipIf c).reg r = s.reg r := by cases c <;> rfl

@[simp] theorem tick_v : (tick s).v = s.v := rfl
@[simp] theorem tick_index : (tick s).index = s.index := rfl
@[simp] theorem tick_pc : (tick s).pc = s.pc := rfl
@[simp] theorem tick_stack : (tick s).stack = s.stack := rfl
@[simp] theorem tick_sp : (tick s).sp = s.sp := rfl
@[simp] theorem tick_delayTimer : (tick s).delayTimer = countDown s.delayTimer := rfl
@[simp] theorem tick_soundTimer : (tick s).soundTimer = countDown s.soundTimer := rfl
@[simp] theorem tick_mem : (tick s).mem = s.mem := rfl
@[simp] theorem tick_gfx : (tick s).gfx = s.gfx := rfl
@[simp] theorem tick_key : (tick s).key = s.key := rfl
@[simp] theorem tick_randomDraws : (tick s).randomDraws = s.randomDraws := rfl
@[simp] theorem tick_soundTick : (tick s).soundTick = (s.soundTimer == 1) := rfl
@[simp] theorem tick_reg (r : RegIdx) : (tick s).reg r = s.reg r := rfl
@[simp] theorem tick_keyDown (r : BitVec 4) : (tick s).keyDown r = s.keyDown r := rfl

/-- The count as an integer: down by one, and 0 stays 0 (40_cycle_engine R87). -/
theorem countDown_toNat (t : Byte) : (countDown t).toNat = t.toNat - 1 := by
  unfold countDown; split <;> bv_omega

/-! ## Register ranges -/

@[simp] theorem State.setRegs_index (k : Nat) (bs : List Byte) : (s.setRegs k bs).index = s.index := by
  induction bs generalizing s k with | nil => rfl | cons b bs ih => simp [State.setRegs, ih]
@[simp] theorem State.setRegs_pc (k : Nat) (bs : List Byte) : (s.setRegs k bs).pc = s.pc := by
  induction bs generalizing s k with | nil => rfl | cons b bs ih => simp [State.setRegs, ih]
@[simp] theorem State.setRegs_stack (k : Nat) (bs : List Byte) : (s.setRegs k bs).stack = s.stack := by
  induction bs generalizing s k with | nil => rfl | cons b bs ih => simp [State.setRegs, ih]
@[simp] theorem State.setRegs_sp (k : Nat) (bs : List Byte) : (s.setRegs k bs).sp = s.sp := by
  induction bs generalizing s k with | nil => rfl | cons b bs ih => simp [State.setRegs, ih]
@[simp] theorem State.setRegs_delayTimer (k : Nat) (bs : List Byte) : (s.setRegs k bs).delayTimer = s.delayTimer := by
  induction bs generalizing s k with | nil => rfl | cons b bs ih => simp [State.setRegs, ih]
@[simp] theorem State.setRegs_soundTimer (k : Nat) (bs : List Byte) : (s.setRegs k bs).soundTimer = s.soundTimer := by
  induction bs generalizing s k with | nil => rfl | cons b bs ih => simp [State.setRegs, ih]
@[simp] theorem State.setRegs_mem (k : Nat) (bs : List Byte) : (s.setRegs k bs).mem = s.mem := by
  induction bs generalizing s k with | nil => rfl | cons b bs ih => simp [State.setRegs, ih]
@[simp] theorem State.setRegs_gfx (k : Nat) (bs : List Byte) : (s.setRegs k bs).gfx = s.gfx := by
  induction bs generalizing s k with | nil => rfl | cons b bs ih => simp [State.setRegs, ih]
@[simp] theorem State.setRegs_key (k : Nat) (bs : List Byte) : (s.setRegs k bs).key = s.key := by
  induction bs generalizing s k with | nil => rfl | cons b bs ih => simp [State.setRegs, ih]
@[simp] theorem State.setRegs_randomDraws (k : Nat) (bs : List Byte) : (s.setRegs k bs).randomDraws = s.randomDraws := by
  induction bs generalizing s k with | nil => rfl | cons b bs ih => simp [State.setRegs, ih]
@[simp] theorem State.setRegs_soundTick (k : Nat) (bs : List Byte) : (s.setRegs k bs).soundTick = s.soundTick := by
  induction bs generalizing s k with | nil => rfl | cons b bs ih => simp [State.setRegs, ih]

/-- Writing a run of registers from V[k]: register r gets the byte r - k of the list if the run
reaches it, and keeps its value otherwise (43_index_and_memory R135). -/
theorem State.setRegs_reg (k : Nat) (bs : List Byte) (h : k + bs.length ≤ 16) (r : RegIdx) :
    (s.setRegs k bs).reg r =
      if k ≤ r.toNat ∧ r.toNat < k + bs.length then bs.getD (r.toNat - k) 0 else s.reg r := by
  induction bs generalizing s k with
  | nil => simp [State.setRegs]
  | cons b bs ih =>
    simp only [List.length_cons] at h
    rw [State.setRegs, ih _ _ (by omega), State.setReg_reg]
    have hk : r = BitVec.ofNat 4 k ↔ r.toNat = k := by
      rw [← BitVec.toNat_inj]; simp [Nat.mod_eq_of_lt (show k < 16 by omega)]
    simp only [hk, List.length_cons]
    rcases Nat.lt_trichotomy r.toNat k with hr | hr | hr
    · rw [if_neg (by omega), if_neg (by omega), if_neg (by omega)]
    · rw [if_neg (by omega), if_pos hr, if_pos (by omega), hr]; simp
    · obtain ⟨j, hj⟩ : ∃ j, r.toNat - k = j + 1 := ⟨r.toNat - k - 1, by omega⟩
      have hj' : r.toNat - (k + 1) = j := by omega
      by_cases hlt : r.toNat < k + 1 + bs.length
      · rw [if_pos (by omega), if_pos (by omega), hj, hj']; simp
      · rw [if_neg (by omega), if_neg (by omega), if_neg (by omega)]

end Sys2Proof.Machine
end

