-- ==== Sys2Proof/Laws/Ops.lean ====
section
/-!
SUPPORT. One lemma per shared operation, saying once all that it can do: the range check, the stack,
the end of a cycle, the fetch, a step, the framebuffer, the operand forms. Proofs cite these instead
of unfolding the operations.
-/

namespace Sys2Proof.Machine

/-! ## The range check -/

theorem outOfRange_iff (base : Word) (len : Nat) :
    outOfRange base len = true ↔ 0 < len ∧ 0xFFF < base.toNat + len - 1 := by
  simp [outOfRange]

/-- The fault payload as an integer (60_exceptions R162). -/
theorem lowestOutOfRange_eq (base : Word) :
    lowestOutOfRange base = BitVec.ofNat 16 (max base.toNat 0x1000) := by
  unfold lowestOutOfRange
  split <;> bv_omega

/-- The range check either lets the result through or raises AddressFault. -/
theorem guardRange_ok {base : Word} {len : Nat} (h : len = 0 ∨ base.toNat + len - 1 ≤ 0xFFF)
    (r : Result) : guardRange base len r = r := by
  rw [guardRange, if_neg]; rw [outOfRange_iff]; omega

theorem guardRange_fault {base : Word} {len : Nat} (h : 0 < len)
    (h' : 0xFFF < base.toNat + len - 1) (r : Result) :
    guardRange base len r = .fault (.addressFault (BitVec.ofNat 16 (max base.toNat 0x1000))) := by
  rw [guardRange, if_pos ((outOfRange_iff _ _).2 ⟨h, h'⟩), lowestOutOfRange_eq, raise]

theorem guardRange_next {base : Word} {len : Nat} {r : Result} {t : State}
    (h : guardRange base len r = .next t) :
    (len = 0 ∨ base.toNat + len - 1 ≤ 0xFFF) ∧ r = .next t := by
  unfold guardRange at h
  split at h
  · cases h
  · rename_i hr; rw [outOfRange_iff] at hr; exact ⟨by omega, h⟩

/-! ## The stack -/

/-- A push with room: the slot at sp is written, sp goes up by one. -/
theorem push_room {s : State} (h : s.sp.val < 16) (w : Word) (k : State → Result) :
    push w s k =
      k { s with stack := s.stack.set s.sp.val w h, sp := ⟨s.sp.val + 1, by omega⟩ } := dif_pos h

theorem push_full {s : State} (h : s.sp.val = 16) (w : Word) (k : State → Result) :
    push w s k = .fault .stackFault := dif_neg (by omega)

/-- A pop with an entry: the top entry is handed on, sp goes down by one, no slot changes. -/
theorem pop_entry {s : State} (h : 0 < s.sp.val) (k : Word → State → Result) :
    pop s k = k (s.stack[s.sp.val - 1]'(by omega)) { s with sp := ⟨s.sp.val - 1, by omega⟩ } :=
  dif_pos h

theorem pop_empty {s : State} (h : s.sp.val = 0) (k : Word → State → Result) :
    pop s k = .fault .stackFault := dif_neg (by omega)

/-! ## Fetch and step -/

/-- The fetch inside memory gives the two bytes at pc, high byte first. -/
theorem fetchWord_ok {s : State} (h : s.pc.toNat ≤ 0xFFE) :
    fetchWord s =
      .ok (Memory.read s.mem s.pc.toNat ++ Memory.read s.mem (s.pc.toNat + 1)) := by
  rw [fetchWord, if_neg (by rw [outOfRange_iff]; omega)]; rfl

theorem fetchWord_fault {s : State} (h : 0xFFE < s.pc.toNat) :
    fetchWord s = .error (.addressFault (BitVec.ofNat 16 (max s.pc.toNat 0x1000))) := by
  rw [fetchWord, if_pos ((outOfRange_iff _ _).2 ⟨by omega, by omega⟩), lowestOutOfRange_eq]

/-- A step that gives a next state fetched a word inside memory, decoded it, ran the instruction to a
next state, and ticked. -/
theorem step_next {s t : State} (h : step s = .next t) :
    ∃ i u, s.pc.toNat ≤ 0xFFE ∧
      decodeWord (Memory.read s.mem s.pc.toNat ++ Memory.read s.mem (s.pc.toNat + 1)) = some i ∧
      exec i s = .next u ∧ t = tick u := by
  by_cases hpc : s.pc.toNat ≤ 0xFFE
  · unfold step fetchInstr at h
    rw [fetchWord_ok hpc] at h
    simp only [decodeOrRaise] at h
    cases hd : decodeWord (Memory.read s.mem s.pc.toNat ++ Memory.read s.mem (s.pc.toNat + 1)) with
    | none => rw [hd] at h; cases h
    | some i =>
      rw [hd] at h
      simp only at h
      cases he : exec i s with
      | next u =>
        rw [he] at h
        simp only [endCycle, Host.Outcome.next.injEq] at h
        exact ⟨i, u, hpc, rfl, he, h.symm⟩
      | fault f => rw [he] at h; cases h
      | refused r => rw [he] at h; cases h
  · unfold step fetchInstr at h
    rw [fetchWord_fault (by omega)] at h
    cases h

/-- A step at a word that decodes is exec of the instruction, then the end of the cycle. -/
theorem step_of_decode {s : State} {i : Instr} (hpc : s.pc.toNat ≤ 0xFFE)
    (hd : decodeWord (Memory.read s.mem s.pc.toNat ++ Memory.read s.mem (s.pc.toNat + 1)) = some i) :
    step s = endCycle (exec i s) := by
  simp only [step, fetchInstr, fetchWord_ok hpc, decodeOrRaise, hd]

theorem step_of_unsupported {s : State} (hpc : s.pc.toNat ≤ 0xFFE)
    (hd : decodeWord (Memory.read s.mem s.pc.toNat ++ Memory.read s.mem (s.pc.toNat + 1)) = none) :
    step s = .fault (.unsupportedOpcode
      (Memory.read s.mem s.pc.toNat ++ Memory.read s.mem (s.pc.toNat + 1))) := by
  simp only [step, fetchInstr, fetchWord_ok hpc, decodeOrRaise, hd, raise]

theorem step_of_bad_pc {s : State} (hpc : 0xFFE < s.pc.toNat) :
    step s = .fault (.addressFault (BitVec.ofNat 16 (max s.pc.toNat 0x1000))) := by
  simp only [step, fetchInstr, fetchWord_fault hpc, raise]

/-! ## Operand forms -/

theorem addrOf_toNat (nnn : Addr12) : (addrOf nnn).toNat = nnn.toNat := by
  simp only [addrOf, BitVec.toNat_setWidth]; omega

theorem offsetTarget_toNat (nnn : Addr12) (b : Byte) :
    (offsetTarget nnn b).toNat = nnn.toNat + b.toNat := by
  simp only [offsetTarget, BitVec.toNat_add, addrOf_toNat, BitVec.toNat_setWidth]; omega

theorem indexPlus_toNat (i : Word) (b : Byte) :
    (indexPlus i b).toNat = (i.toNat + b.toNat) % 65536 := by
  simp only [indexPlus, BitVec.toNat_add, BitVec.toNat_setWidth]; omega

theorem glyphAddress_toNat (b : Byte) : (glyphAddress b).toNat = b.toNat * 5 := by
  have := b.isLt
  simp only [glyphAddress, BitVec.toNat_mul, BitVec.toNat_setWidth]
  rw [show (5 : Word).toNat = 5 from rfl]; omega

theorem keyIndex_toNat (b : Byte) : (keyIndex b).toNat = b.toNat % 16 := by
  simp [keyIndex, BitVec.extractLsb'_toNat]

@[simp] theorem regRange_length (s : State) (x : RegIdx) :
    (regRange s x).length = x.toNat + 1 := by simp [regRange, rangeLength]

theorem regRange_getElem (s : State) (x : RegIdx) {k : Nat} (h : k < (regRange s x).length) :
    (regRange s x)[k] = s.reg (BitVec.ofNat 4 k) := by simp [regRange]

@[simp] theorem bcdDigits_length (b : Byte) : (bcdDigits b).length = 3 := rfl

/-- With no key down there is no least key. -/
theorem lowestKey_none {s : State} (h : ∀ k, s.keyDown k = false) : lowestKey s = none := by
  simp [lowestKey, h]

/-- A least pressed key is pressed, and no smaller one is. -/
theorem lowestKey_some {s : State} {k : BitVec 4} (h : lowestKey s = some k) :
    s.keyDown k = true ∧ ∀ j : BitVec 4, j.toNat < k.toNat → s.keyDown j = false := by
  unfold lowestKey at h
  obtain ⟨hk, n, hn, hget, hlt⟩ := List.find?_eq_some_iff_getElem.1 h
  simp only [List.length_map, List.length_range] at hn
  simp only [List.getElem_map, List.getElem_range] at hget hlt
  subst hget
  refine ⟨hk, fun j hj => ?_⟩
  have hjn : j.toNat < n := by
    rw [BitVec.toNat_ofNat, Nat.mod_eq_of_lt hn] at hj; exact hj
  have := hlt j.toNat hjn
  simpa using this

theorem lowestKey_eq_none_iff (s : State) : lowestKey s = none ↔ ∀ k, s.keyDown k = false := by
  refine ⟨fun h k => ?_, lowestKey_none⟩
  have := List.find?_eq_none.1 h k (by
    refine List.mem_map.2 ⟨k.toNat, List.mem_range.2 k.isLt, by simp⟩)
  simpa using this

/-! ## The framebuffer -/

theorem Gfx.pixel_flip (g : Gfx) {p : Nat} (hp : p < 2048) (q : Nat) :
    Gfx.pixel (Gfx.flip g p) q = (Gfx.pixel g q ^^ decide (q = p)) := by
  simp only [Gfx.pixel, Gfx.flip, BitVec.getLsbD_xor, BitVec.getLsbD_shiftLeft]
  congr 1
  by_cases h : q = p
  · subst h; simp [hp]
  · simp only [h, decide_false]
    by_cases h2 : q < p
    · simp [h2]
    · have : q - p ≠ 0 := by omega
      simp [BitVec.getLsbD_one, this]

theorem pixelIndex_lt (cx cy : Nat) : pixelIndex cx cy < 2048 := by
  simp only [pixelIndex, Config.gfxWidth, Config.gfxHeight]; omega

/-- Two pixels are the same only if both coordinates agree modulo their axes. -/
theorem pixelIndex_inj {cx cy dx dy : Nat} :
    pixelIndex cx cy = pixelIndex dx dy ↔ cx % 64 = dx % 64 ∧ cy % 32 = dy % 32 := by
  simp only [pixelIndex, Config.gfxWidth, Config.gfxHeight]; omega

end Sys2Proof.Machine
end

