-- ==== Sys2Proof/Laws/Draw.lean ====
section
/-!
SUPPORT. The drawing loop in closed form (44_display R141): each pixel is touched at most once, so a
sprite flips exactly the pixels it covers and collides exactly with those that were set.
-/

namespace Sys2Proof.Machine

/-- A set bit among the first n columns of a sprite byte falls on pixel p. -/
def rowCovers (cx cy n : Nat) (b : Byte) (p : Nat) : Prop :=
  ∃ col < n, spriteBit b col = true ∧ p = pixelIndex (cx + col) cy

/-- A set bit of the rows of a sprite falls on pixel p. -/
def rowsCover (cx cy : Nat) (bs : List Byte) (p : Nat) : Prop :=
  ∃ (row : Nat) (h : row < bs.length), rowCovers cx (cy + row) 8 bs[row] p

theorem drawBit_pixel (cx cy : Nat) (bit : Bool) (d : Drawing) (p : Nat) :
    Gfx.pixel (drawBit cx cy bit d).gfx p =
      (Gfx.pixel d.gfx p ^^ decide (bit = true ∧ p = pixelIndex cx cy)) := by
  cases bit <;> simp [drawBit, Gfx.pixel_flip _ (pixelIndex_lt cx cy)]

theorem drawBit_collision (cx cy : Nat) (bit : Bool) (d : Drawing) :
    (drawBit cx cy bit d).collision = true ↔
      d.collision = true ∨ (bit = true ∧ Gfx.pixel d.gfx (pixelIndex cx cy) = true) := by
  cases bit <;> simp [drawBit]

/-- The first n columns of a row, n at most 8: no two fall on the same pixel. -/
theorem drawColumns_spec (cx cy : Nat) (b : Byte) (d : Drawing) (n : Nat) (hn : n ≤ 8) :
    let d' := (List.range n).foldl (fun d col => drawBit (cx + col) cy (spriteBit b col) d) d
    (∀ p, Gfx.pixel d'.gfx p = true ↔
      ((Gfx.pixel d.gfx p = true ∧ ¬ rowCovers cx cy n b p) ∨
       (Gfx.pixel d.gfx p = false ∧ rowCovers cx cy n b p))) ∧
    (d'.collision = true ↔
      d.collision = true ∨ ∃ p, rowCovers cx cy n b p ∧ Gfx.pixel d.gfx p = true) := by
  induction n with
  | zero => simp [rowCovers]
  | succ n ih =>
    obtain ⟨hp, hc⟩ := ih (by omega)
    have hfresh : ¬ rowCovers cx cy n b (pixelIndex (cx + n) cy) := by
      rintro ⟨col, hlt, -, he⟩
      have := (pixelIndex_inj.1 he).1
      omega
    have hsucc : ∀ p, rowCovers cx cy (n + 1) b p ↔
        rowCovers cx cy n b p ∨ (spriteBit b n = true ∧ p = pixelIndex (cx + n) cy) := by
      intro p
      constructor
      · rintro ⟨col, hlt, hb, he⟩
        rcases Nat.lt_succ_iff_lt_or_eq.1 hlt with h | rfl
        · exact .inl ⟨col, h, hb, he⟩
        · exact .inr ⟨hb, he⟩
      · rintro (⟨col, hlt, hb, he⟩ | ⟨hb, he⟩)
        · exact ⟨col, by omega, hb, he⟩
        · exact ⟨n, by omega, hb, he⟩
    simp only [List.range_succ, List.foldl_append, List.foldl_cons, List.foldl_nil]
    refine ⟨fun p => ?_, ?_⟩
    · rw [drawBit_pixel, hsucc]
      have hpp := hp p
      by_cases he : spriteBit b n = true ∧ p = pixelIndex (cx + n) cy
      · obtain ⟨hb, rfl⟩ := he
        simp only [hfresh, not_false_eq_true, and_true, and_false, or_false] at hpp
        rw [Bool.eq_iff_iff.2 hpp]
        simp [hb, hfresh]
      · simp only [he, decide_false, Bool.xor_false, or_false]
        exact hpp
    · rw [drawBit_collision, hc, hp]
      constructor
      · rintro ((h | ⟨p, h, h'⟩) | ⟨hb, h⟩)
        · exact .inl h
        · exact .inr ⟨p, (hsucc p).2 (.inl h), h'⟩
        · refine .inr ⟨_, (hsucc _).2 (.inr ⟨hb, rfl⟩), ?_⟩
          rcases h with h | h
          · exact h.1
          · exact absurd h.2 hfresh
      · rintro (h | ⟨p, h, h'⟩)
        · exact .inl (.inl h)
        · rcases (hsucc p).1 h with h | ⟨hb, rfl⟩
          · exact .inl (.inr ⟨p, h, h'⟩)
          · exact .inr ⟨hb, .inl ⟨h', hfresh⟩⟩

/-- The rows of a sprite of at most 32 rows: the pixels it covers are flipped, the others kept, and
a collision is recorded exactly when a covered pixel was set. -/
theorem drawRows_spec (cx cy : Nat) (bs : List Byte) (d : Drawing) (hlen : bs.length ≤ 32) :
    (∀ p, Gfx.pixel (drawRows cx cy bs d).gfx p = true ↔
      ((Gfx.pixel d.gfx p = true ∧ ¬ rowsCover cx cy bs p) ∨
       (Gfx.pixel d.gfx p = false ∧ rowsCover cx cy bs p))) ∧
    ((drawRows cx cy bs d).collision = true ↔
      d.collision = true ∨ ∃ p, rowsCover cx cy bs p ∧ Gfx.pixel d.gfx p = true) := by
  induction bs generalizing cy d with
  | nil => simp [drawRows, rowsCover]
  | cons b bs ih =>
    simp only [List.length_cons] at hlen
    obtain ⟨hp, hc⟩ := ih (cy + 1) (drawRow cx cy b d) (by omega)
    obtain ⟨hp1, hc1⟩ := drawColumns_spec cx cy b d 8 (le_refl 8)
    change (∀ p, Gfx.pixel (drawRow cx cy b d).gfx p = true ↔ _) at hp1
    change ((drawRow cx cy b d).collision = true ↔ _) at hc1
    have hcons : ∀ p, rowsCover cx cy (b :: bs) p ↔
        rowCovers cx cy 8 b p ∨ rowsCover cx (cy + 1) bs p := by
      intro p
      constructor
      · rintro ⟨row, h, hr⟩
        cases row with
        | zero => exact .inl hr
        | succ row =>
          refine .inr ⟨row, by simpa using h, ?_⟩
          simpa only [List.getElem_cons_succ, show cy + 1 + row = cy + (row + 1) by omega] using hr
      · rintro (h | ⟨row, h, hr⟩)
        · exact ⟨0, by simp, h⟩
        · refine ⟨row + 1, by simpa using h, ?_⟩
          simpa only [List.getElem_cons_succ, show cy + 1 + row = cy + (row + 1) by omega] using hr
    have hdisj : ∀ p, rowCovers cx cy 8 b p → ¬ rowsCover cx (cy + 1) bs p := by
      rintro p ⟨col, -, -, rfl⟩ ⟨row, hrow, col', -, -, he⟩
      have := (pixelIndex_inj.1 he).2
      omega
    have hkeep : ∀ p, rowsCover cx (cy + 1) bs p →
        (Gfx.pixel (drawRow cx cy b d).gfx p = true ↔ Gfx.pixel d.gfx p = true) := by
      intro p hr
      have : ¬ rowCovers cx cy 8 b p := fun h => hdisj p h hr
      rw [hp1]; simp [this]
    refine ⟨fun p => ?_, ?_⟩
    · rw [drawRows, hp, hcons]
      by_cases h1 : rowCovers cx cy 8 b p
      · have h2 := hdisj p h1
        have h3 := hp1 p
        simp only [h1, h2, not_true_eq_false, and_false, false_or, and_true, not_false_eq_true,
          or_false] at h3 ⊢
        exact h3
      · by_cases h2 : rowsCover cx (cy + 1) bs p
        · have h3 := hkeep p h2
          simp only [h1, h2, not_true_eq_false, and_false, false_or, and_true, or_true]
          rw [← Bool.not_eq_true, h3, Bool.not_eq_true]
        · have h3 := hp1 p
          simp only [h1, h2, not_false_eq_true, and_true, and_false, or_false, or_self] at h3 ⊢
          exact h3
    · rw [drawRows, hc, hc1]
      constructor
      · rintro ((h | ⟨p, h, h'⟩) | ⟨p, h, h'⟩)
        · exact .inl h
        · exact .inr ⟨p, (hcons p).2 (.inl h), h'⟩
        · exact .inr ⟨p, (hcons p).2 (.inr h), (hkeep p h).1 h'⟩
      · rintro (h | ⟨p, h, h'⟩)
        · exact .inl (.inl h)
        · rcases (hcons p).1 h with h | h
          · exact .inl (.inr ⟨p, h, h'⟩)
          · exact .inr ⟨p, h, (hkeep p h).2 h'⟩

end Sys2Proof.Machine
end

