-- ==== Sys2Proof/Laws/Encoding.lean ====
section
/-!
SUPPORT. The fields of a word written digit by digit: what fieldOp, fieldX, fieldY, fieldN, fieldNN
and fieldNNN read from each of the formats of 30_encoding R62, and back.
-/

namespace Sys2Proof

/-- A bit of a word of format NNN. -/
theorem getLsbD_nnn (o : BitVec 4) (a : Addr12) (i : Nat) :
    (show Word from o ++ a).getLsbD i = if i < 12 then a.getLsbD i else o.getLsbD (i - 12) := by
  refine (BitVec.getLsbD_append (x := o) (y := a) (i := i)).trans ?_
  split <;> rfl

/-- A bit of a word of format XNN or X. -/
theorem getLsbD_xnn (o x : BitVec 4) (a : Byte) (i : Nat) :
    (show Word from o ++ x ++ a).getLsbD i =
      if i < 8 then a.getLsbD i else if i < 12 then x.getLsbD (i - 8) else o.getLsbD (i - 12) := by
  refine (BitVec.getLsbD_append (x := o ++ x) (y := a) (i := i)).trans ?_
  rw [BitVec.getLsbD_append]
  split_ifs <;> first | rfl | (exfalso; omega)

/-- A bit of a word of format XY or XYN. -/
theorem getLsbD_xyn (o x y n : BitVec 4) (i : Nat) :
    (show Word from o ++ x ++ y ++ n).getLsbD i =
      if i < 4 then n.getLsbD i else if i < 8 then y.getLsbD (i - 4)
      else if i < 12 then x.getLsbD (i - 8) else o.getLsbD (i - 12) := by
  refine (BitVec.getLsbD_append (x := o ++ x ++ y) (y := n) (i := i)).trans ?_
  rw [BitVec.getLsbD_append, BitVec.getLsbD_append]
  split_ifs <;> first | rfl | (exfalso; omega)

section Nnn
variable (o : BitVec 4) (a : Addr12)

@[simp] theorem fieldOp_nnn : fieldOp (o ++ a) = o := by
  refine BitVec.eq_of_getLsbD_eq fun i hi => ?_
  rw [fieldOp, BitVec.getLsbD_extractLsb', getLsbD_nnn, if_neg (by omega)]; simp [hi]

@[simp] theorem fieldNNN_nnn : fieldNNN (o ++ a) = a := by
  refine BitVec.eq_of_getLsbD_eq fun i hi => ?_
  rw [fieldNNN, BitVec.getLsbD_extractLsb', getLsbD_nnn, if_pos (by omega)]; simp [hi]

end Nnn

section Xnn
variable (o x : BitVec 4) (a : Byte)

@[simp] theorem fieldOp_xnn : fieldOp (o ++ x ++ a) = o := by
  refine BitVec.eq_of_getLsbD_eq fun i hi => ?_
  rw [fieldOp, BitVec.getLsbD_extractLsb', getLsbD_xnn, if_neg (by omega), if_neg (by omega)]
  simp [hi]

@[simp] theorem fieldX_xnn : fieldX (o ++ x ++ a) = x := by
  refine BitVec.eq_of_getLsbD_eq fun i hi => ?_
  rw [fieldX, BitVec.getLsbD_extractLsb', getLsbD_xnn, if_neg (by omega), if_pos (by omega)]
  simp [hi]

@[simp] theorem fieldNN_xnn : fieldNN (o ++ x ++ a) = a := by
  refine BitVec.eq_of_getLsbD_eq fun i hi => ?_
  rw [fieldNN, BitVec.getLsbD_extractLsb', getLsbD_xnn, if_pos (by omega)]; simp [hi]

end Xnn

section Xyn
variable (o x y n : BitVec 4)

@[simp] theorem fieldOp_xyn : fieldOp (o ++ x ++ y ++ n) = o := by
  refine BitVec.eq_of_getLsbD_eq fun i hi => ?_
  rw [fieldOp, BitVec.getLsbD_extractLsb', getLsbD_xyn, if_neg (by omega), if_neg (by omega),
    if_neg (by omega)]
  simp [hi]

@[simp] theorem fieldX_xyn : fieldX (o ++ x ++ y ++ n) = x := by
  refine BitVec.eq_of_getLsbD_eq fun i hi => ?_
  rw [fieldX, BitVec.getLsbD_extractLsb', getLsbD_xyn, if_neg (by omega), if_neg (by omega),
    if_pos (by omega)]
  simp [hi]

@[simp] theorem fieldY_xyn : fieldY (o ++ x ++ y ++ n) = y := by
  refine BitVec.eq_of_getLsbD_eq fun i hi => ?_
  rw [fieldY, BitVec.getLsbD_extractLsb', getLsbD_xyn, if_neg (by omega), if_pos (by omega)]
  simp [hi]

@[simp] theorem fieldN_xyn : fieldN (o ++ x ++ y ++ n) = n := by
  refine BitVec.eq_of_getLsbD_eq fun i hi => ?_
  rw [fieldN, BitVec.getLsbD_extractLsb', getLsbD_xyn, if_pos (by omega)]; simp [hi]

end Xyn

/-- A word is its op and nnn fields. -/
theorem word_eq_nnn (w : Word) : fieldOp w ++ fieldNNN w = w := by
  refine BitVec.eq_of_getLsbD_eq fun i hi => ?_
  refine (getLsbD_nnn _ _ i).trans ?_
  simp only [fieldOp, fieldNNN, BitVec.getLsbD_extractLsb']
  split_ifs
  · simp_all
  · rw [show 12 + (i - 12) = i by omega]; simp; omega

/-- A word is its op, x and nn fields. -/
theorem word_eq_xnn (w : Word) : fieldOp w ++ fieldX w ++ fieldNN w = w := by
  refine BitVec.eq_of_getLsbD_eq fun i hi => ?_
  refine (getLsbD_xnn _ _ _ i).trans ?_
  simp only [fieldOp, fieldX, fieldNN, BitVec.getLsbD_extractLsb']
  split_ifs
  · simp_all
  · rw [show 8 + (i - 8) = i by omega]; simp; omega
  · rw [show 12 + (i - 12) = i by omega]; simp; omega

/-- A word is its op, x, y and n fields. -/
theorem word_eq_xyn (w : Word) : fieldOp w ++ fieldX w ++ fieldY w ++ fieldN w = w := by
  refine BitVec.eq_of_getLsbD_eq fun i hi => ?_
  refine (getLsbD_xyn _ _ _ _ i).trans ?_
  simp only [fieldOp, fieldX, fieldY, fieldN, BitVec.getLsbD_extractLsb']
  split_ifs
  · simp_all
  · rw [show 4 + (i - 4) = i by omega]; simp; omega
  · rw [show 8 + (i - 8) = i by omega]; simp; omega
  · rw [show 12 + (i - 12) = i by omega]; simp; omega

/-- The two bytes of a word make the word again (20_memory R44). -/
theorem wordOfBytes_bytesOfWord (w : Word) :
    wordOfBytes (w.extractLsb' 8 8) (w.extractLsb' 0 8) = w := by
  refine BitVec.eq_of_getLsbD_eq fun i hi => ?_
  refine (BitVec.getLsbD_append (x := w.extractLsb' 8 8) (y := w.extractLsb' 0 8)).trans ?_
  simp only [BitVec.getLsbD_extractLsb']
  split_ifs
  · simp_all
  · rw [show 8 + (i - 8) = i by omega]; simp; omega

end Sys2Proof
end

