-- ==== Sys2Proof/Laws/PerInstr.lean ====
section
/-!
SUPPORT. A statement about every instruction as syntax, one lemma per constructor: its encoding
selects its own row of the opcode map (30_encoding R64).
-/

namespace Sys2Proof.Laws.EncodingRow

/-- The row of the instruction is a row of the opcode map, and the instruction's encoding selects it. -/
def Statement (i : Instr) : Prop := i.row ∈ opcodeMap ∧ i.row.selects (encode i) = true

/-! Masking a word keeps the fixed digits of its format and clears the operands. -/

theorem mask_nnn (o : BitVec 4) (a : Addr12) :
    (show Word from o ++ a) &&& 0xF000 = (show Word from o ++ (0 : Addr12)) := by
  have hm : ∀ i < 16, (0xF000 : Word).getLsbD i = decide (12 ≤ i) := by decide
  refine BitVec.eq_of_getLsbD_eq fun i hi => ?_
  rw [BitVec.getLsbD_and, getLsbD_nnn, getLsbD_nnn, hm i hi]
  split
  · simp; omega
  · have : 12 ≤ i := by omega
    simp [this]

theorem mask_xnn (o x : BitVec 4) (a : Byte) :
    (show Word from o ++ x ++ a) &&& 0xF000 = (show Word from o ++ (0 : BitVec 4) ++ (0 : Byte)) := by
  have hm : ∀ i < 16, (0xF000 : Word).getLsbD i = decide (12 ≤ i) := by decide
  refine BitVec.eq_of_getLsbD_eq fun i hi => ?_
  rw [BitVec.getLsbD_and, getLsbD_xnn, getLsbD_xnn, hm i hi]
  split_ifs
  · simp; omega
  · simp; omega
  · have : 12 ≤ i := by omega
    simp [this]

theorem mask_x (o x : BitVec 4) (a : Byte) :
    (show Word from o ++ x ++ a) &&& 0xF0FF = (show Word from o ++ (0 : BitVec 4) ++ a) := by
  have hm : ∀ i < 16, (0xF0FF : Word).getLsbD i = decide (i < 8 ∨ 12 ≤ i) := by decide
  refine BitVec.eq_of_getLsbD_eq fun i hi => ?_
  rw [BitVec.getLsbD_and, getLsbD_xnn, getLsbD_xnn, hm i hi]
  split_ifs with h1 h2
  · simp [h1]
  · simp; omega
  · have : 12 ≤ i := by omega
    simp [this]

theorem mask_xy (o x y n : BitVec 4) :
    (show Word from o ++ x ++ y ++ n) &&& 0xF00F =
      (show Word from o ++ (0 : BitVec 4) ++ (0 : BitVec 4) ++ n) := by
  have hm : ∀ i < 16, (0xF00F : Word).getLsbD i = decide (i < 4 ∨ 12 ≤ i) := by decide
  refine BitVec.eq_of_getLsbD_eq fun i hi => ?_
  rw [BitVec.getLsbD_and, getLsbD_xyn, getLsbD_xyn, hm i hi]
  split_ifs with h1 h2 h3
  · simp [h1]
  · simp; omega
  · simp; omega
  · have : 12 ≤ i := by omega
    simp [this]

theorem mask_xyn (o x y n : BitVec 4) :
    (show Word from o ++ x ++ y ++ n) &&& 0xF000 =
      (show Word from o ++ (0 : BitVec 4) ++ (0 : BitVec 4) ++ (0 : BitVec 4)) := by
  have hm : ∀ i < 16, (0xF000 : Word).getLsbD i = decide (12 ≤ i) := by decide
  refine BitVec.eq_of_getLsbD_eq fun i hi => ?_
  rw [BitVec.getLsbD_and, getLsbD_xyn, getLsbD_xyn, hm i hi]
  split_ifs
  · simp; omega
  · simp; omega
  · simp; omega
  · have : 12 ≤ i := by omega
    simp [this]

/-- A word whose masked value is the row's value selects the row. -/
theorem selects_of_mask {r : OpRow} {w : Word} (h : w &&& r.mask = r.value) :
    r.selects w = true := by simp [OpRow.selects, h]

theorem cls : Statement .cls := by unfold Statement; decide
theorem ret : Statement .ret := by unfold Statement; decide
theorem jp (nnn : Addr12) : Statement (.jp nnn) :=
  ⟨by simp [Instr.row, opcodeMap], selects_of_mask (mask_nnn _ nnn)⟩
theorem call (nnn : Addr12) : Statement (.call nnn) :=
  ⟨by simp [Instr.row, opcodeMap], selects_of_mask (mask_nnn _ nnn)⟩
theorem seImm (x : RegIdx) (nn : Byte) : Statement (.seImm x nn) :=
  ⟨by simp [Instr.row, opcodeMap], selects_of_mask (mask_xnn _ x nn)⟩
theorem sneImm (x : RegIdx) (nn : Byte) : Statement (.sneImm x nn) :=
  ⟨by simp [Instr.row, opcodeMap], selects_of_mask (mask_xnn _ x nn)⟩
theorem seReg (x y : RegIdx) : Statement (.seReg x y) :=
  ⟨by simp [Instr.row, opcodeMap], selects_of_mask (mask_xy _ x y _)⟩
theorem ldImm (x : RegIdx) (nn : Byte) : Statement (.ldImm x nn) :=
  ⟨by simp [Instr.row, opcodeMap], selects_of_mask (mask_xnn _ x nn)⟩
theorem addImm (x : RegIdx) (nn : Byte) : Statement (.addImm x nn) :=
  ⟨by simp [Instr.row, opcodeMap], selects_of_mask (mask_xnn _ x nn)⟩
theorem ldReg (x y : RegIdx) : Statement (.ldReg x y) :=
  ⟨by simp [Instr.row, opcodeMap], selects_of_mask (mask_xy _ x y _)⟩
theorem orReg (x y : RegIdx) : Statement (.orReg x y) :=
  ⟨by simp [Instr.row, opcodeMap], selects_of_mask (mask_xy _ x y _)⟩
theorem andReg (x y : RegIdx) : Statement (.andReg x y) :=
  ⟨by simp [Instr.row, opcodeMap], selects_of_mask (mask_xy _ x y _)⟩
theorem xorReg (x y : RegIdx) : Statement (.xorReg x y) :=
  ⟨by simp [Instr.row, opcodeMap], selects_of_mask (mask_xy _ x y _)⟩
theorem addReg (x y : RegIdx) : Statement (.addReg x y) :=
  ⟨by simp [Instr.row, opcodeMap], selects_of_mask (mask_xy _ x y _)⟩
theorem subReg (x y : RegIdx) : Statement (.subReg x y) :=
  ⟨by simp [Instr.row, opcodeMap], selects_of_mask (mask_xy _ x y _)⟩
theorem shr (x y : RegIdx) : Statement (.shr x y) :=
  ⟨by simp [Instr.row, opcodeMap], selects_of_mask (mask_xy _ x y _)⟩
theorem subnReg (x y : RegIdx) : Statement (.subnReg x y) :=
  ⟨by simp [Instr.row, opcodeMap], selects_of_mask (mask_xy _ x y _)⟩
theorem shl (x y : RegIdx) : Statement (.shl x y) :=
  ⟨by simp [Instr.row, opcodeMap], selects_of_mask (mask_xy _ x y _)⟩
theorem sneReg (x y : RegIdx) : Statement (.sneReg x y) :=
  ⟨by simp [Instr.row, opcodeMap], selects_of_mask (mask_xy _ x y _)⟩
theorem ldI (nnn : Addr12) : Statement (.ldI nnn) :=
  ⟨by simp [Instr.row, opcodeMap], selects_of_mask (mask_nnn _ nnn)⟩
theorem jpV0 (nnn : Addr12) : Statement (.jpV0 nnn) :=
  ⟨by simp [Instr.row, opcodeMap], selects_of_mask (mask_nnn _ nnn)⟩
theorem rnd (x : RegIdx) (nn : Byte) : Statement (.rnd x nn) :=
  ⟨by simp [Instr.row, opcodeMap], selects_of_mask (mask_xnn _ x nn)⟩
theorem drw (x y : RegIdx) (n : BitVec 4) : Statement (.drw x y n) :=
  ⟨by simp [Instr.row, opcodeMap], selects_of_mask (mask_xyn _ x y n)⟩
theorem skp (x : RegIdx) : Statement (.skp x) :=
  ⟨by simp [Instr.row, opcodeMap], selects_of_mask (mask_x _ x _)⟩
theorem sknp (x : RegIdx) : Statement (.sknp x) :=
  ⟨by simp [Instr.row, opcodeMap], selects_of_mask (mask_x _ x _)⟩
theorem ldVxDT (x : RegIdx) : Statement (.ldVxDT x) :=
  ⟨by simp [Instr.row, opcodeMap], selects_of_mask (mask_x _ x _)⟩
theorem ldVxK (x : RegIdx) : Statement (.ldVxK x) :=
  ⟨by simp [Instr.row, opcodeMap], selects_of_mask (mask_x _ x _)⟩
theorem ldDTVx (x : RegIdx) : Statement (.ldDTVx x) :=
  ⟨by simp [Instr.row, opcodeMap], selects_of_mask (mask_x _ x _)⟩
theorem ldSTVx (x : RegIdx) : Statement (.ldSTVx x) :=
  ⟨by simp [Instr.row, opcodeMap], selects_of_mask (mask_x _ x _)⟩
theorem addI (x : RegIdx) : Statement (.addI x) :=
  ⟨by simp [Instr.row, opcodeMap], selects_of_mask (mask_x _ x _)⟩
theorem ldF (x : RegIdx) : Statement (.ldF x) :=
  ⟨by simp [Instr.row, opcodeMap], selects_of_mask (mask_x _ x _)⟩
theorem ldB (x : RegIdx) : Statement (.ldB x) :=
  ⟨by simp [Instr.row, opcodeMap], selects_of_mask (mask_x _ x _)⟩
theorem storeRegs (x : RegIdx) : Statement (.storeRegs x) :=
  ⟨by simp [Instr.row, opcodeMap], selects_of_mask (mask_x _ x _)⟩
theorem loadRegs (x : RegIdx) : Statement (.loadRegs x) :=
  ⟨by simp [Instr.row, opcodeMap], selects_of_mask (mask_x _ x _)⟩

end Sys2Proof.Laws.EncodingRow
end

