-- ==== Sys2Proof/Tests/Slice0.lean ====
section
/-!
SUPPORT. Tests and witnesses. A test runs ONE step of a small state; its expected value is a vector of
spec/95_test_vectors.md, named in its comment, or is written out from the encoding table of
30_encoding R64. A witness shows a concrete state and operands that meet the hypotheses of a
statement, clause by clause at the edge of its range.
-/

namespace Sys2Proof.Tests

open Sys2Proof Sys2Proof.Machine

/-! ## Helpers -/

/-- The reset state with one instruction word where the next fetch reads. -/
def start (w : Nat) : State := State.reset.withFetchWord 16 w

/-- The same at another pc. -/
def startAt (pc : Word) (w : Nat) : State := (State.reset.jump pc).withFetchWord 16 w

/-- What f reads from the state after one step, if the step succeeds. -/
def after {α : Type} (s : State) (f : State → α) : Option α :=
  match step s with
  | .next t => some (f t)
  | _ => none

/-- The fault of one step, if it faults. -/
def faultOf (s : State) : Option Fault :=
  match step s with
  | .fault f => some f
  | _ => none

/-- The framebuffer in which exactly the pixels of a list without repeats are set. -/
def pixels (ps : List Nat) : Gfx := ps.foldl Gfx.flip 0

/-- V1, V2 and VF. -/
def v12f (t : State) : Byte × Byte × Byte := (t.reg 1, t.reg 2, t.reg 0xF)

/-- A word at 0x200 with V1, V2 given and VF = 77, as in 95 section 2.3. -/
def alu (w : Nat) (a b : Byte) : State := (((start w).setReg 1 a).setReg 2 b).setReg 0xF 0x77

/-- A state with n stack entries in use, the entry at the top being w. -/
def stacked (s : State) (n : Fin 17) (w : Word) : State :=
  { s with sp := n, stack := Vector.replicate 16 w }

/-! ## Ill-formed terms are refused -/

/-- No row selects these words (95 section 2.1); a supported neighbour of each is selected. -/
theorem test_wordWellFormed_refuses :
    wordWellFormed 0x0000 = false ∧ wordWellFormed 0x00E1 = false ∧ wordWellFormed 0x5121 = false ∧
    wordWellFormed 0x8008 = false ∧ wordWellFormed 0x9001 = false ∧ wordWellFormed 0xE09F = false ∧
    wordWellFormed 0xF075 = false ∧ wordWellFormed 0x00E0 = true ∧ wordWellFormed 0x8AB7 = true := by
  decide

/-- The words of R66 are unsupported and their neighbours are not. -/
theorem test_wordUnsupported :
    wordUnsupported 0xFFFF = true ∧ wordUnsupported 0x800F = true ∧ wordUnsupported 0x500F = true ∧
    wordUnsupported 0x00EE = false ∧ wordUnsupported 0x800E = false := by decide

/-- One byte more than fits is refused (95 L2, L3). -/
theorem test_programWellFormed_refuses :
    programWellFormed (List.replicate 3585 0) = false ∧
    programWellFormed (List.replicate 3584 0) = true := by
  simp only [programWellFormed, List.length_replicate]
  decide

/-- Memory out of order, above 0xFFF, or listing what an unlisted address reads as, is not canonical. -/
theorem test_memory_wf_refuses :
    ¬ Memory.wf [(0x301, 1), (0x300, 1)] ∧ ¬ Memory.wf [(0x1000, 1)] ∧ ¬ Memory.wf [(0x300, 0)] ∧
    Memory.wf [(0x300, 1), (0x301, 1)] := by decide

/-! ## Decoding: each row's word written out bit by bit from 30_encoding R64 -/

theorem test_decode_family0 :
    decodeWord 0b0000000011100000 = some (.cls) ∧
    decodeWord 0b0000000011101110 = some (.ret) := by
  decide

theorem test_decode_jumps :
    decodeWord 0b0001101010111100 = some (.jp 0xABC) ∧
    decodeWord 0b0010001100000000 = some (.call 0x300) ∧
    decodeWord 0b1010001011110000 = some (.ldI 0x2F0) ∧
    decodeWord 0b1011111111111111 = some (.jpV0 0xFFF) := by
  decide

theorem test_decode_immediates :
    decodeWord 0b0011001100101010 = some (.seImm 3 0x2A) ∧
    decodeWord 0b0100001100101011 = some (.sneImm 3 0x2B) ∧
    decodeWord 0b0110101001010101 = some (.ldImm 0xA 0x55) ∧
    decodeWord 0b0111000100100000 = some (.addImm 1 0x20) ∧
    decodeWord 0b1100001100001111 = some (.rnd 3 0x0F) := by
  decide

theorem test_decode_skips :
    decodeWord 0b0101000100100000 = some (.seReg 1 2) ∧
    decodeWord 0b1001000100100000 = some (.sneReg 1 2) ∧
    decodeWord 0b1110001010011110 = some (.skp 2) ∧
    decodeWord 0b1110001010100001 = some (.sknp 2) := by
  decide

theorem test_decode_family8 :
    decodeWord 0b1000000100100000 = some (.ldReg 1 2) ∧
    decodeWord 0b1000000100100001 = some (.orReg 1 2) ∧
    decodeWord 0b1000000100100010 = some (.andReg 1 2) ∧
    decodeWord 0b1000000100100011 = some (.xorReg 1 2) ∧
    decodeWord 0b1000000100100100 = some (.addReg 1 2) ∧
    decodeWord 0b1000000100100101 = some (.subReg 1 2) ∧
    decodeWord 0b1000000100100110 = some (.shr 1 2) ∧
    decodeWord 0b1000000100100111 = some (.subnReg 1 2) ∧
    decodeWord 0b1000000100101110 = some (.shl 1 2) := by
  decide

theorem test_decode_draw :
    decodeWord 0b1101000000010101 = some (.drw 0 1 5) := by
  decide

theorem test_decode_familyF :
    decodeWord 0b1111001100000111 = some (.ldVxDT 3) ∧
    decodeWord 0b1111010000001010 = some (.ldVxK 4) ∧
    decodeWord 0b1111001100010101 = some (.ldDTVx 3) ∧
    decodeWord 0b1111001100011000 = some (.ldSTVx 3) ∧
    decodeWord 0b1111001000011110 = some (.addI 2) ∧
    decodeWord 0b1111010000101001 = some (.ldF 4) ∧
    decodeWord 0b1111010100110011 = some (.ldB 5) ∧
    decodeWord 0b1111001001010101 = some (.storeRegs 2) ∧
    decodeWord 0b1111001001100101 = some (.loadRegs 2) := by
  decide

/-- Unsupported words are rejected by name, whatever bytes follow; too few bytes too (30 R66). -/
theorem test_decodeBytes_rejects :
    decodeBytes [0xFF, 0xFF, 0x60] = .unsupportedOpcode 0xFFFF ∧ decodeBytes [0x60] = .truncated ∧
    decodeBytes [0x60, 0x0A, 0x61] = .instr (.ldImm 0 0x0A) [0x61] := by decide

/-- The table's numbering: bit 0 is the least significant bit of the word; the high byte comes first. -/
theorem test_decodeTableWord :
    decodeTableWord 16 0x8014 = some (.addReg 0 1) ∧ decodeTableWord 16 0x0000 = none ∧
    tableBytes 16 0x8014 = [0x80, 0x14] := by decide

/-! ## One step: the cycle (95 sections 2.1, 2.6) -/

/-- 95 E1. -/
theorem test_fetch_high_byte_first :
    after (start 0x6A55) (fun t => (t.reg 0xA, t.pc)) = some (0x55, 0x202) := by decide

/-- 95 E2. -/
theorem test_fetch_odd_pc :
    after (startAt 0x201 0x6A55) (fun t => (t.reg 0xA, t.pc)) = some (0x55, 0x203) := by decide

/-- 95 E3, E4, E5, E6. -/
theorem test_fetch_at_the_top :
    after (startAt 0xFFE 0x6A55) (fun t => (t.reg 0xA, t.pc)) = some (0x55, 0x1000) ∧
    faultOf (State.reset.jump 0x1000) = some (.addressFault 0x1000) ∧
    faultOf (State.reset.jump 0xFFF) = some (.addressFault 0x1000) ∧
    faultOf (State.reset.jump 0x1234) = some (.addressFault 0x1234) := by decide

/-- 30 R69: memory that nothing has written is the unsupported word 0000. -/
theorem test_reset_runs_into_zero_word :
    faultOf State.reset = some (.unsupportedOpcode 0x0000) := by decide

/-- 95 K22. -/
theorem test_unsupported_keeps_timers :
    let s := ((start 0xFFFF).setDelayTimer 3).setSoundTimer 1
    executeCycle s = ⟨s, some (.unsupportedOpcode 0xFFFF), false⟩ := by decide +kernel

/-- 95 K18, K19, K21. -/
theorem test_tick_counts_both :
    after (((start 0x6000).setDelayTimer 1).setSoundTimer 1)
      (fun t => (t.delayTimer, t.soundTimer, t.soundTick)) = some (0, 0, true) ∧
    after ((start 0x6000).setSoundTimer 2)
      (fun t => (t.delayTimer, t.soundTimer, t.soundTick)) = some (0, 1, false) := by decide

/-! ## One step: control flow (95 section 2.2) -/

/-- 95 F1, F2. -/
theorem test_jp :
    after (start 0x1ABC) State.pc = some 0xABC ∧ after (start 0x1FFF) State.pc = some 0xFFF := by decide

/-- 95 F4, F5. -/
theorem test_call :
    after (startAt 0x204 0x2300) (fun t => (t.stack[0], t.sp, t.pc)) = some (0x204, 1, 0x300) ∧
    after (stacked (start 0x2300) 15 0) (fun t => (t.stack[15], t.sp, t.pc)) = some (0x200, 16, 0x300) := by decide

/-- 95 F6. -/
theorem test_call_full :
    faultOf (stacked (start 0x2300) 16 0) = some .stackFault := by decide

/-- 95 F7, F9. -/
theorem test_ret :
    after (stacked (startAt 0x300 0x00EE) 1 0x204) (fun t => (t.stack[0], t.sp, t.pc)) =
      some (0x204, 0, 0x206) ∧
    after (stacked (start 0x00EE) 16 0xFFE) (fun t => (t.sp, t.pc)) = some (15, 0x1000) := by decide

/-- 95 F8, K23. -/
theorem test_ret_empty :
    faultOf (start 0x00EE) = some .stackFault := by decide

/-- 95 F10, F11. -/
theorem test_seImm :
    after ((startAt 0x210 0x332A).setReg 3 0x2A) State.pc = some 0x214 ∧
    after ((startAt 0x210 0x332B).setReg 3 0x2A) State.pc = some 0x212 := by decide

/-- 95 F12, F13. -/
theorem test_sneImm :
    after ((startAt 0x210 0x432A).setReg 3 0x2A) State.pc = some 0x212 ∧
    after ((startAt 0x210 0x432B).setReg 3 0x2A) State.pc = some 0x214 := by decide

/-- 95 F14, F15. -/
theorem test_seReg :
    after (((startAt 0x220 0x5120).setReg 1 7).setReg 2 7) State.pc = some 0x224 ∧
    after (((startAt 0x220 0x5120).setReg 1 7).setReg 2 8) State.pc = some 0x222 := by decide

/-- 95 F16, F17. -/
theorem test_sneReg :
    after (((startAt 0x220 0x9120).setReg 1 7).setReg 2 7) State.pc = some 0x222 ∧
    after (((startAt 0x220 0x9120).setReg 1 7).setReg 2 8) State.pc = some 0x224 := by decide

/-- 95 F20, F21. -/
theorem test_jpV0 :
    after ((start 0xB300).setReg 0 0x10) State.pc = some 0x310 ∧
    after ((start 0xBFFF).setReg 0 0xFF) State.pc = some 0x10FE := by decide

/-! ## One step: load, arithmetic, logic, random (95 section 2.3) -/

/-- 95 A0a, A57. -/
theorem test_ldImm :
    after (alu 0x610A 0x99 0) v12f = some (0x0A, 0, 0x77) ∧
    after (alu 0x6F12 0 0) v12f = some (0, 0, 0x12) := by decide

/-- 95 A0b, A0d. -/
theorem test_addImm :
    after (alu 0x7120 0xF0 0) v12f = some (0x10, 0, 0x77) ∧
    after (alu 0x7101 0xFF 0) v12f = some (0x00, 0, 0x77) := by decide

/-- 95 A1. -/
theorem test_ldReg :
    after (alu 0x8120 0x11 0x33) v12f = some (0x33, 0x33, 0x77) := by decide

/-- 95 A2, A3, A4. -/
theorem test_logic :
    after (alu 0x8121 0xF0 0x0F) v12f = some (0xFF, 0x0F, 0x77) ∧
    after (alu 0x8122 0xF3 0x3F) v12f = some (0x33, 0x3F, 0x77) ∧
    after (alu 0x8123 0xFF 0x0F) v12f = some (0xF0, 0x0F, 0x77) := by decide

/-- 95 A6, A7, A9. -/
theorem test_addReg :
    after (alu 0x8124 0xFF 0xFF) v12f = some (0xFE, 0xFF, 1) ∧
    after (alu 0x8124 0xC8 0x37) v12f = some (0xFF, 0x37, 0) ∧
    after (alu 0x8124 0x80 0x80) v12f = some (0x00, 0x80, 1) := by decide

/-- 95 A40, A41. -/
theorem test_addReg_vf :
    after ((alu 0x8F24 0 0x20).setReg 0xF 0xF0) v12f = some (0, 0x20, 0x10) ∧
    after ((alu 0x82F4 0 0x20).setReg 0xF 0xF0) v12f = some (0, 0x10, 1) := by decide

/-- 95 A10, A11, A12. -/
theorem test_subReg :
    after (alu 0x8125 0x0A 0x03) v12f = some (0x07, 0x03, 1) ∧
    after (alu 0x8125 0x05 0x0A) v12f = some (0xFB, 0x0A, 0) ∧
    after (alu 0x8125 0x07 0x07) v12f = some (0x00, 0x07, 1) := by decide

/-- 95 A43, A45. -/
theorem test_subReg_vf :
    after ((alu 0x8F25 0 0x03).setReg 0xF 0x05) v12f = some (0, 0x03, 0x02) ∧
    after ((alu 0x82F5 0 0x05).setReg 0xF 0x03) v12f = some (0, 0x02, 1) := by decide

/-- 95 A16, A17, A18. -/
theorem test_subnReg :
    after (alu 0x8127 0x03 0x0A) v12f = some (0x07, 0x0A, 1) ∧
    after (alu 0x8127 0x0A 0x03) v12f = some (0xF9, 0x03, 0) ∧
    after (alu 0x8127 0x07 0x07) v12f = some (0x00, 0x07, 1) := by decide

/-- 95 A48, A50. -/
theorem test_subnReg_vf :
    after ((alu 0x8F27 0 0x03).setReg 0xF 0x05) v12f = some (0, 0x03, 0xFE) ∧
    after ((alu 0x82F7 0 0x05).setReg 0xF 0x03) v12f = some (0, 0xFE, 0) := by decide

/-- 95 A20, A23, A53. -/
theorem test_shr :
    after (alu 0x8126 0x05 0xAA) v12f = some (0x02, 0xAA, 1) ∧
    after (alu 0x8126 0xFF 0x00) v12f = some (0x7F, 0x00, 1) ∧
    after ((alu 0x8F06 0 0).setReg 0xF 0x07) v12f = some (0, 0, 0x03) := by decide

/-- 95 A25, A28, A55. -/
theorem test_shl :
    after (alu 0x812E 0x81 0xAA) v12f = some (0x02, 0xAA, 1) ∧
    after (alu 0x812E 0x7F 0x00) v12f = some (0xFE, 0x00, 0) ∧
    after ((alu 0x8F0E 0 0).setReg 0xF 0x03) v12f = some (0, 0, 0x06) := by decide

/-- 95 A62, A63: V3 is the random byte ANDed with nn, for every byte. -/
theorem test_rnd :
    after (start 0xC300) (fun t => (t.reg 3, t.randomDraws)) =
      some (Config.randomByte 0 &&& 0, 1) ∧
    after (start 0xC3FF) (State.reg · 3) = some (Config.randomByte 0 &&& 0xFF) := ⟨rfl, rfl⟩

/-! ## One step: index register and memory (95 section 2.4) -/

/-- 95 M1, M2. -/
theorem test_ldI :
    after (start 0xA2F0) State.index = some 0x2F0 ∧ after (start 0xAFFF) State.index = some 0xFFF := by decide

/-- 95 M4, M6. -/
theorem test_addI :
    after (((start 0xF21E).setIndex 0xFFF).setReg 2 1) (fun t => (t.index, t.reg 0xF)) =
      some (0x1000, 0) ∧
    after (((start 0xF21E).setIndex 0xFF80).setReg 2 0xFF) State.index = some 0x7F := by decide

/-- 95 M7, M8. -/
theorem test_ldF :
    after ((start 0xF429).setReg 4 0x0A) State.index = some 0x32 ∧
    after ((start 0xF429).setReg 4 0xFF) State.index = some 0x4FB := by decide

/-- 95 M16, M17. -/
theorem test_ldB :
    after (((start 0xF533).setIndex 0x300).setReg 5 0xFF)
      (fun t => Memory.readBytes t.mem 0x300 4) = some [2, 5, 5, 0] ∧
    after (((start 0xF533).setIndex 0xFFD).setReg 5 0x7B)
      (fun t => Memory.readBytes t.mem 0xFFD 3) = some [1, 2, 3] := by decide

/-- 95 M18, M19. -/
theorem test_ldB_fault :
    faultOf ((start 0xF533).setIndex 0xFFE) = some (.addressFault 0x1000) ∧
    faultOf ((start 0xF533).setIndex 0x2345) = some (.addressFault 0x2345) := by decide

/-- 43 R134's example, and 95 M21. -/
theorem test_storeRegs :
    after ((((start 0xF255).setIndex 0x400).setReg 0 1).setRegs 1 [2, 3, 4])
      (fun t => (Memory.readBytes t.mem 0x3FF 5, t.index)) = some ([0, 1, 2, 3, 0], 0x400) ∧
    after ((start 0xF055).setReg 0 0xAA) (fun t => Memory.read t.mem 0) = some 0xAA := by decide

/-- 95 M24, M25, M26. -/
theorem test_storeRegs_fault :
    faultOf ((start 0xF155).setIndex 0xFFF) = some (.addressFault 0x1000) ∧
    faultOf ((start 0xFF55).setIndex 0xFF0) = none ∧
    faultOf ((start 0xFF55).setIndex 0xFF1) = some (.addressFault 0x1000) := by decide

/-- 95 M27. -/
theorem test_loadRegs :
    after (((start 0xF265).setIndex 0x400).setMem
        (Memory.writeBytes (start 0xF265).mem 0x400 [9, 8, 7, 6]))
      (fun t => (t.reg 0, t.reg 1, t.reg 2, t.reg 3, t.index)) = some (9, 8, 7, 0, 0x400) := by decide

/-- 95 M30, M31, M32. -/
theorem test_loadRegs_fault :
    faultOf ((start 0xF165).setIndex 0xFFF) = some (.addressFault 0x1000) ∧
    faultOf ((start 0xFF65).setIndex 0xFF0) = none ∧
    faultOf ((start 0xF065).setIndex 0xFFFF) = some (.addressFault 0xFFFF) := by decide

/-! ## One step: display (95 section 2.5) -/

/-- The sprite of 95 G1 and G3: glyph 0, placed by hand at 0x300 so that no font byte is used. -/
def sprite (w : Nat) (a b : Byte) : State :=
  (((((start w).setIndex 0x300).setReg 0 a).setReg 1 b).setMem
    (Memory.writeBytes (start w).mem 0x300 [0xF0, 0x90, 0x90, 0x90, 0xF0]))

/-- 95 G0. -/
theorem test_cls :
    after (((start 0x00E0).setGfx (BitVec.allOnes 2048)).setReg 0xF 5) (fun t => (t.gfx, t.reg 0xF)) =
      some (0, 5) := by decide +kernel

/-- 95 G1, G2. -/
theorem test_drw :
    after (sprite 0xD015 0 0) (fun t => (t.gfx, t.reg 0xF)) =
      some (pixels [0, 1, 2, 3, 64, 67, 128, 131, 192, 195, 256, 257, 258, 259], 0) ∧
    after ((sprite 0xD015 0 0).setGfx
        (pixels [0, 1, 2, 3, 64, 67, 128, 131, 192, 195, 256, 257, 258, 259]))
      (fun t => (t.gfx, t.reg 0xF)) = some (0, 1) := by decide +kernel

/-- 95 G3. -/
theorem test_drw_wraps :
    after (sprite 0xD015 0x3F 0x1F) (fun t => (t.gfx, t.reg 0xF)) =
      some (pixels [2, 63, 66, 127, 130, 191, 192, 193, 194, 255, 1984, 1985, 1986, 2047], 0) := by decide +kernel

/-- 95 G7, G12, G13: no row needs no memory; a sprite above 0xFFF faults. -/
theorem test_drw_edges :
    after ((((start 0xD010).setIndex 0x1234).setReg 0xF 1).setGfx (pixels [5]))
      (fun t => (t.gfx, t.reg 0xF)) = some (pixels [5], 0) ∧
    faultOf ((start 0xD012).setIndex 0xFFF) = some (.addressFault 0x1000) ∧
    faultOf ((start 0xD01F).setIndex 0xFF1) = none ∧
    faultOf ((start 0xD01F).setIndex 0xFF2) = some (.addressFault 0x1000) := by decide +kernel

/-- 95 G16, G17: VF as a coordinate is its old value. -/
theorem test_drw_vf_operand :
    after (((sprite 0xDF11 0 3).setReg 0xF 0x0A).setIndex 0x301) (fun t => t.gfx) =
      some (pixels [202, 205]) ∧
    after (((sprite 0xD1F1 0 3).setReg 0xF 0x0A).setIndex 0x301) (fun t => t.gfx) =
      some (pixels [643, 646]) := by decide +kernel

/-- 95 P3's glyph: 20 R43 gives its bytes, which rest on the default FONT (log 4). -/
theorem test_font_glyph_7 :
    Memory.readBytes State.reset.mem 0x023 5 = [0xF0, 0x10, 0x20, 0x40, 0x40] ∧
    Memory.read State.reset.mem 0x04F = 0x80 ∧ Memory.read State.reset.mem 0x050 = 0 ∧
    font.length = 80 := by decide

/-! ## One step: keys and timers (95 section 2.6) -/

/-- 95 K1, K2, K5. -/
theorem test_skp :
    after (((startAt 0x230 0xE29E).setReg 2 5).setKey 5 true) State.pc = some 0x234 ∧
    after ((startAt 0x230 0xE29E).setReg 2 5) State.pc = some 0x232 ∧
    after (((startAt 0x230 0xE29E).setReg 2 0x1A).setKey 0xA true) State.pc = some 0x234 := by decide

/-- 95 K3, K4. -/
theorem test_sknp :
    after (((startAt 0x230 0xE2A1).setReg 2 5).setKey 5 true) State.pc = some 0x232 ∧
    after ((startAt 0x230 0xE2A1).setReg 2 5) State.pc = some 0x234 := by decide

/-- 95 K15, K16. -/
theorem test_ldVxDT :
    after (((start 0xF307).setReg 3 0x99).setDelayTimer 0x10) (fun t => (t.reg 3, t.delayTimer)) =
      some (0x10, 0x0F) ∧
    after ((start 0xF307).setReg 3 0x99) (fun t => (t.reg 3, t.delayTimer)) = some (0, 0) := by decide

/-- 95 K32, K35. -/
theorem test_ldVxK :
    after (((start 0xF40A).setKey 9 true).setKey 3 true) (fun t => (t.reg 4, t.pc)) =
      some (3, 0x202) ∧
    after ((start 0xFF0A).setKey 0xB true) (fun t => (t.reg 0xF, t.pc)) = some (0x0B, 0x202) := by decide

/-- 95 section 2.6, the Fx0A table, cycle 1. -/
theorem test_ldVxK_blocked :
    after ((((start 0xF40A).setReg 4 0x33).setDelayTimer 2).setSoundTimer 2)
      (fun t => (t.pc, t.reg 4, t.delayTimer, t.soundTimer, t.soundTick)) =
      some (0x200, 0x33, 1, 1, false) := by decide

/-- 95 K7, K8. -/
theorem test_ldDTVx :
    after ((start 0xF315).setReg 3 5) State.delayTimer = some 4 ∧
    after ((start 0xF315).setDelayTimer 9) State.delayTimer = some 0 := by decide

/-- 95 K11, K12, K14. -/
theorem test_ldSTVx :
    after ((start 0xF318).setReg 3 2) (fun t => (t.soundTimer, t.soundTick)) = some (1, false) ∧
    after ((start 0xF318).setReg 3 1) (fun t => (t.soundTimer, t.soundTick)) = some (0, true) ∧
    after ((start 0xF318).setSoundTimer 1) (fun t => (t.soundTimer, t.soundTick)) = some (0, false) := by decide

/-! ## The host's moves (95 section 2.7) -/

/-- 95 L4. -/
theorem test_loadProgram_keeps_tail :
    (match hostLoadProgram [0x11, 0x22, 0x33, 0x44] State.reset with
      | .next t => (match hostLoadProgram [0xAA, 0xBB] t with
        | .next u => Memory.readBytes u.mem 0x200 5
        | _ => [])
      | _ => []) = [0xAA, 0xBB, 0x33, 0x44, 0] := by decide

/-- 95 I1, on a state with a program, registers, timers and a key. -/
theorem test_initialize_from_any_state :
    hostInitialize ((((alu 0x6000 1 2).setSoundTimer 1).setKey 3 true).setIndex 7) = State.reset := by decide +kernel

/-! ## Witnesses: the hypotheses of each statement can be met, at the edges -/

theorem witness_EncodeOfDecodeIsIdentity :
    decodeWord 0x8AB6 = some (.shr 0xA 0xB) := by decide

theorem witness_FetchIsBigEndian :
    (startAt 0xFFE 0x6A55).pc.toNat ≤ 0xFFE ∧ (startAt 0 0x6A55).pc.toNat ≤ 0xFFE := by decide

theorem witness_StepRunsTheDecodedInstruction :
    (∃ u, (start 0x6A55).pc.toNat ≤ 0xFFE ∧ decodeWord (wordAtPc (start 0x6A55)) = some (.ldImm 0xA 0x55) ∧
      exec (.ldImm 0xA 0x55) (start 0x6A55) = .next u) ∧
    (∃ f, (start 0x00EE).pc.toNat ≤ 0xFFE ∧ decodeWord (wordAtPc (start 0x00EE)) = some .ret ∧
      exec .ret (start 0x00EE) = .fault f) :=
  ⟨⟨_, by decide, by decide, rfl⟩, ⟨.stackFault, by decide, by decide, rfl⟩⟩

theorem witness_TimersCountAfterEverySuccess :
    ∃ u, (start 0xF318).pc.toNat ≤ 0xFFE ∧ decodeWord (wordAtPc (start 0xF318)) = some (.ldSTVx 3) ∧
      exec (.ldSTVx 3) (start 0xF318) = .next u := ⟨_, by decide, by decide, rfl⟩

theorem witness_ErrorCycleChangesNothing :
    (executeCycle (start 0xFFFF)).error = some (.unsupportedOpcode 0xFFFF) := by decide

theorem witness_StepFaultsExactlyAsListed :
    0xFFE < (State.reset.jump 0xFFF).pc.toNat ∧
    ((State.reset.jump 0xFFE).pc.toNat ≤ 0xFFE ∧ decodeWord (wordAtPc (State.reset.jump 0xFFE)) = none) ∧
    ((startAt 0xFFE 0xF533).pc.toNat ≤ 0xFFE ∧
      decodeWord (wordAtPc (startAt 0xFFE 0xF533)) = some (.ldB 5) ∧
      ownFault ((startAt 0xFFE 0xF533).setIndex 0xFFE) (.ldB 5) = some (.addressFault 0x1000) ∧
      ownFault ((startAt 0xFFE 0xF533).setIndex 0xFFD) (.ldB 5) = none) := by decide

/-- For EveryPcChangeIsTheTables and EveryInstructionKeepsItsFrame. -/
theorem witness_EveryPcChangeAndFrame :
    (∃ t, exec (.drw 0 1 5) State.reset = .next t) ∧ (∃ t, exec (.storeRegs 0xF) State.reset = .next t) := ⟨⟨_, rfl⟩, ⟨_, rfl⟩⟩

/-- For CyclesNeverWriteTheKeyMask and DelayTimerFallsUnlessWritten. -/
theorem witness_StepGivesNext :
    ∃ t, step (start 0x6A55) = .next t ∧
      ∀ x, decodeWord (wordAtPc (start 0x6A55)) ≠ some (.ldDTVx x) :=
  ⟨_, rfl, by decide⟩

theorem witness_EveryStepKeepsTheInvariant :
    State.Inv (start 0x2300) ∧ ∃ t, step (start 0x2300) = .next t :=
  ⟨⟨by decide, by decide, by intro j h hj; exact absurd hj (Nat.not_lt_zero j), by decide⟩, ⟨_, rfl⟩⟩

/-- Of its premise; the same state serves ResetMeetsTheInvariant's users. -/
theorem witness_HostRunsKeepTheInvariant :
    State.Inv State.reset :=
  ⟨Memory.wf_nil, by decide, by intro j h hj; exact absurd hj (by simp [State.reset]), by decide⟩

/-- For the four statements on what is not read. -/
theorem witness_Independence :
    (∀ x nn, Instr.ldVxK 3 ≠ .rnd x nn) ∧
    (∀ x, Instr.ldSTVx 3 ≠ .skp x ∧ Instr.ldSTVx 3 ≠ .sknp x ∧ Instr.ldSTVx 3 ≠ .ldVxK x) ∧
    (∀ x, Instr.ldDTVx 3 ≠ .ldSTVx x) ∧ (∃ x, Instr.ldSTVx 3 = .ldSTVx x) ∧
    (Instr.skp 3 ≠ .cls ∧ ∀ x y n, Instr.skp 3 ≠ .drw x y n) := by
  simp

/-- For CallPushesItsOwnAddress, ReturnPopsTheTopEntry, StackOverflowAndUnderflowFault. -/
theorem witness_Stack :
    (stacked State.reset 15 0).sp.val < 16 ∧ (stacked State.reset 0 0).sp.val < 16 ∧
    (stacked State.reset 16 0).sp.val = 16 ∧ (stacked State.reset 0 0).sp.val = 0 ∧
    (stacked State.reset 1 0).sp.val = (0 : Fin 16).val + 1 ∧
    (stacked State.reset 16 0).sp.val = (15 : Fin 16).val + 1 := by decide

theorem witness_ReturnResumesAfterTheCall :
    ∃ t, exec (.call 0x300) (stacked State.reset 15 0) = .next t ∧
      ∃ t' : State, t'.stack = t.stack ∧ t'.sp = t.sp ∧ ∃ j : Fin 16, j.val < (stacked State.reset 15 0).sp.val :=
  ⟨_, rfl, _, rfl, rfl, 14, by decide⟩

theorem witness_SkipComparesRegisters :
    (0x1 : BitVec 4) ≠ 0 ∧ (0xF : BitVec 4) ≠ 0 := by decide

/-- For the clauses of the arithmetic and shift statements about x other than F. -/
theorem witness_FlagWriters :
    (0xE : RegIdx) ≠ 0xF ∧ (0x0 : RegIdx) ≠ 0xF := by decide

theorem witness_BcdStoresThreeDigits :
    Memory.wf (State.reset.setIndex 0xFFD).mem ∧ (State.reset.setIndex 0xFFD).index.toNat + 2 ≤ 0xFFF := by decide

/-- For RegisterDumpStoresTheRange and RegisterLoadReadsTheRange. -/
theorem witness_RegisterRanges :
    Memory.wf (State.reset.setIndex 0xFF0).mem ∧
    (State.reset.setIndex 0xFF0).index.toNat + (0xF : RegIdx).toNat ≤ 0xFFF ∧
    (State.reset.setIndex 0xFFF).index.toNat + (0 : RegIdx).toNat ≤ 0xFFF := by decide

theorem witness_AccessesAboveMemoryFault :
    (State.reset.setIndex 0xFFE).index.toNat + 2 > 0xFFF ∧
    (State.reset.setIndex 0xFF1).index.toNat + (0xF : RegIdx).toNat > 0xFFF ∧
    (State.reset.setIndex 0xFFFF).index.toNat + (0 : RegIdx).toNat > 0xFFF ∧
    1 ≤ (1 : BitVec 4).toNat ∧ (State.reset.setIndex 0x1000).index.toNat + (1 : BitVec 4).toNat - 1 > 0xFFF := by decide

/-- 95 section 2.4's self-modifying program, its second cycle. -/
theorem witness_StoreIsSeenByTheNextFetch :
    ∃ t, Memory.wf ((startAt 0x202 0xF155).setIndex 0x204).mem ∧
      decodeWord (wordAtPc ((startAt 0x202 0xF155).setIndex 0x204)) = some (.storeRegs 1) ∧
      step ((startAt 0x202 0xF155).setIndex 0x204) = .next t ∧
      ((startAt 0x202 0xF155).setIndex 0x204).index.toNat ≤
        ((startAt 0x202 0xF155).setIndex 0x204).pc.toNat + 2 ∧
      ((startAt 0x202 0xF155).setIndex 0x204).pc.toNat + 3 ≤
        ((startAt 0x202 0xF155).setIndex 0x204).index.toNat + (1 : RegIdx).toNat :=
  ⟨_, by decide, by decide, rfl, by decide, by decide⟩

theorem witness_CanonicalMemoriesReadingAlikeAreEqual :
    Memory.wf (Memory.write [] 0x300 7) ∧ Memory.wf [(0x300, 7)] ∧
      ∀ a, Memory.read (Memory.write [] 0x300 7) a = Memory.read [(0x300, 7)] a :=
  ⟨by decide, by decide, fun a => by rw [show Memory.write [] 0x300 7 = [(0x300, 7)] by decide]⟩

theorem witness_DrawFlipsExactlyTheSprite :
    ((0 : BitVec 4) = 0) ∧
    (State.reset.setIndex 0xFF1).index.toNat + (0xF : BitVec 4).toNat - 1 ≤ 0xFFF ∧
    (State.reset.setIndex 0xFFF).index.toNat + (1 : BitVec 4).toNat - 1 ≤ 0xFFF := by decide

theorem witness_DrawTwiceRestoresTheScreen :
    (0 : RegIdx) ≠ 0xF ∧ (1 : RegIdx) ≠ 0xF ∧ ∃ t, exec (.drw 0 1 5) (sprite 0xD015 0x3F 0x1F) = .next t :=
  ⟨by decide, by decide, _, rfl⟩

theorem witness_SkipTestsTheKeyVxNames :
    (0xA : BitVec 4).toNat = ((State.reset.setReg 2 0x1A).reg 2).toNat % 16 := by decide

theorem witness_WaitForKeyTakesTheLeastOrBlocks :
    (((State.reset.setKey 9 true).setKey 3 true).keyDown 3 = true ∧
      ∀ j : BitVec 4, j.toNat < (3 : BitVec 4).toNat →
        ((State.reset.setKey 9 true).setKey 3 true).keyDown j = false) ∧
    (State.reset.setKey 0 true).keyDown 0 = true ∧ (∀ k, State.reset.keyDown k = false) := by decide

theorem witness_BlockedKeyWaitOnlyTicks :
    (startAt 0xFFE 0xF40A).pc.toNat ≤ 0xFFE ∧ decodeWord (wordAtPc (startAt 0xFFE 0xF40A)) = some (.ldVxK 4) ∧
    ∀ k, (startAt 0xFFE 0xF40A).keyDown k = false := by decide

theorem witness_LoadProgramStoresOnlyTheProgram :
    Memory.wf State.reset.mem ∧ (List.replicate 3584 (0xE0 : Byte)).length ≤ 3584 ∧
    3584 < (List.replicate 3585 (0xE0 : Byte)).length ∧ ([] : List Byte).length ≤ 3584 :=
  ⟨Memory.wf_nil, by rw [List.length_replicate], by rw [List.length_replicate]; decide, by decide⟩

end Sys2Proof.Tests
end

/-!
The proofs about the state (10_state): what every instruction and every cycle keeps, what no
instruction reads, and what reset leaves.
-/

namespace Sys2Proof.Machine

/-! ## Calls and returns -/

/-- The stack's slots and its depth replaced together, as a call and a return do. -/
def State.withStack (s : State) (slots : Vector Word 16) (depth : Fin 17) : State :=
  { s with stack := slots, sp := depth }

@[simp] theorem State.withStack_stack (s : State) (slots : Vector Word 16) (depth : Fin 17) :
    (s.withStack slots depth).stack = slots := rfl

@[simp] theorem State.withStack_sp (s : State) (slots : Vector Word 16) (depth : Fin 17) :
    (s.withStack slots depth).sp = depth := rfl

section Stack
variable {s : State}

theorem execCall_room (nnn : Addr12) (h : s.sp.val < 16) :
    execCall nnn s = .next ((s.withStack (s.stack.set s.sp.val s.pc h)
      ⟨s.sp.val + 1, by omega⟩).jump (addrOf nnn)) := push_room h _ _

theorem execCall_full (nnn : Addr12) (h : ¬ s.sp.val < 16) :
    execCall nnn s = .fault .stackFault := push_full (by omega) _ _

theorem execRet_entry (h : 0 < s.sp.val) :
    execRet s = .next ((s.withStack s.stack ⟨s.sp.val - 1, by omega⟩).jump
      (s.stack[s.sp.val - 1]'(by omega) + 2)) := pop_entry h _

theorem execRet_empty (h : ¬ 0 < s.sp.val) : execRet s = .fault .stackFault :=
  pop_empty (by omega) _

end Stack

/-! ## What holds of the next state, if there is one -/

/-- P holds of the next state of the result, if it has one. -/
def Ensures (P : State → Prop) (r : Result) : Prop := ∀ t, r = .next t → P t

section Ensures
variable {P : State → Prop} {s : State}

theorem ensures_next {u : State} (h : P u) : Ensures P (.next u) := by
  rintro _ ⟨⟩
  exact h

theorem ensures_guardRange {base : Word} {len : Nat} {r : Result} (h : Ensures P r) :
    Ensures P (guardRange base len r) := fun t ht => h t (guardRange_next ht).2

theorem ensures_fault (r : Fault) : Ensures P (.fault r) := fun _ ht => nomatch ht

/-- A call either pushes its own address and jumps, or faults (41_control_flow R102). -/
theorem ensures_execCall {nnn : Addr12}
    (h : ∀ hroom : s.sp.val < 16, P ((s.withStack (s.stack.set s.sp.val s.pc hroom)
      ⟨s.sp.val + 1, by omega⟩).jump (addrOf nnn))) :
    Ensures P (execCall nnn s) := by
  by_cases hroom : s.sp.val < 16
  · exact execCall_room nnn hroom ▸ ensures_next (h hroom)
  · exact execCall_full nnn hroom ▸ ensures_fault _

/-- A return either takes the top entry off and resumes after it, or faults (41_control_flow R100). -/
theorem ensures_execRet
    (h : ∀ hentry : 0 < s.sp.val, P ((s.withStack s.stack ⟨s.sp.val - 1, by omega⟩).jump
      (s.stack[s.sp.val - 1]'(by omega) + 2))) :
    Ensures P (execRet s) := by
  by_cases hentry : 0 < s.sp.val
  · exact execRet_entry hentry ▸ ensures_next (h hentry)
  · exact execRet_empty hentry ▸ ensures_fault _

/-- A key wait either takes a key and goes on, or keeps the whole state (45_keys_and_timers R153). -/
theorem ensures_execLdVxK {x : RegIdx} (hkey : ∀ b, P (s.setReg x b).advance) (hblocked : P s) :
    Ensures P (execLdVxK x s) := by
  unfold execLdVxK
  split
  · exact ensures_next (hkey _)
  · exact ensures_next hblocked

end Ensures

/-! ## Frames: one rule per operation of the state -/

section Frame
variable {w : Writes} {s t : State}

theorem Frame.refl (w : Writes) (s : State) : Frame w s s where
  regs _ _ := rfl
  bytes _ _ := rfl
  index _ := rfl
  stack _ := ⟨rfl, rfl⟩
  delayTimer _ := rfl
  soundTimer _ := rfl
  gfx _ := rfl
  draws _ := rfl
  key := rfl
  soundTick := rfl

theorem Frame.jump (h : Frame w s t) (a : Word) : Frame w s (t.jump a) := { h with }

theorem Frame.advance (h : Frame w s t) : Frame w s t.advance := h.jump _

theorem Frame.skipIf (h : Frame w s t) (c : Bool) : Frame w s (t.skipIf c) := by
  cases c
  · exact h.advance
  · exact h.jump _

theorem Frame.setReg (h : Frame w s t) {x : RegIdx} (hx : x ∈ w.regs) (b : Byte) :
    Frame w s (t.setReg x b) :=
  { h with
    regs := fun r hr => by
      rw [State.setReg_reg_ne t b (ne_of_mem_of_not_mem hx hr).symm, h.regs r hr] }

theorem Frame.setFlagThenReg (h : Frame w s t) {x : RegIdx} (hf : vf ∈ w.regs) (hx : x ∈ w.regs)
    (flag b : Byte) : Frame w s (t.setFlagThenReg flag x b) :=
  (h.setReg hf flag).setReg hx b

theorem Frame.setRegs (h : Frame w s t) {k : Nat} {bs : List Byte}
    (hk : ∀ j, j < k + bs.length → BitVec.ofNat 4 j ∈ w.regs) : Frame w s (t.setRegs k bs) := by
  induction bs generalizing t k with
  | nil => exact h
  | cons b bs ih =>
    simp only [List.length_cons] at hk
    exact ih (h.setReg (hk k (by omega)) b) fun j hj => hk j (by omega)

theorem Frame.setIndex (h : Frame w s t) (hw : w.index = true) (a : Word) :
    Frame w s (t.setIndex a) :=
  { h with index := fun hn => nomatch hw.symm.trans hn }

theorem Frame.setGfx (h : Frame w s t) (hw : w.gfx = true) (g : Gfx) : Frame w s (t.setGfx g) :=
  { h with gfx := fun hn => nomatch hw.symm.trans hn }

theorem Frame.setDelayTimer (h : Frame w s t) (hw : w.delayTimer = true) (b : Byte) :
    Frame w s (t.setDelayTimer b) :=
  { h with delayTimer := fun hn => nomatch hw.symm.trans hn }

theorem Frame.setSoundTimer (h : Frame w s t) (hw : w.soundTimer = true) (b : Byte) :
    Frame w s (t.setSoundTimer b) :=
  { h with soundTimer := fun hn => nomatch hw.symm.trans hn }

theorem Frame.drawn (h : Frame w s t) (hw : w.draws = true) : Frame w s t.drawn :=
  { h with draws := fun hn => nomatch hw.symm.trans hn }

theorem Frame.withStack (h : Frame w s t) (hw : w.stack = true) (slots : Vector Word 16)
    (depth : Fin 17) : Frame w s (t.withStack slots depth) :=
  { h with stack := fun hn => nomatch hw.symm.trans hn }

/-- Bytes stored at base and up stay in the frame when it allows all their addresses. -/
theorem Frame.storeBytes (h : Frame w s t) {base : Word} {bs : List Byte}
    (hw : w.bytes = addressesFrom base bs.length) :
    Frame w s (t.setMem (Memory.writeBytes t.mem base.toNat bs)) :=
  { h with
    bytes := fun a ha => by
      have hout : a < base.toNat ∨ base.toNat + bs.length ≤ a := by
        by_contra hin
        refine ha (hw ▸ List.mem_map.2 ⟨a - base.toNat, List.mem_range.2 ?_, ?_⟩) <;> omega
      rw [State.setMem_mem, Memory.read_writeBytes_outside _ _ _ hout, h.bytes a ha] }

end Frame

theorem ofNat_mem_regsUpTo {x : RegIdx} {j : Nat} (h : j < x.toNat + 1) :
    BitVec.ofNat 4 j ∈ regsUpTo x := List.mem_map.2 ⟨j, List.mem_range.2 h, rfl⟩

/-- Every instruction keeps what `writesOf` does not list for it. -/
theorem exec_frame (i : Instr) (s : State) :
    Ensures (Frame (writesOf s i) s) (exec i s) := by
  have h := Frame.refl (writesOf s i) s
  cases i with
  | cls => exact ensures_next (h.setGfx rfl _).advance
  | ret => exact ensures_execRet fun _ => (h.withStack rfl _ _).jump _
  | call _ => exact ensures_execCall fun _ => (h.withStack rfl _ _).jump _
  | jp _ | jpV0 _ => exact ensures_next (h.jump _)
  | seImm _ _ | sneImm _ _ | seReg _ _ | sneReg _ _ | skp _ | sknp _ =>
    exact ensures_next (h.skipIf _)
  | ldImm x _ | addImm x _ | ldReg x _ | orReg x _ | andReg x _ | xorReg x _ | ldVxDT x =>
    exact ensures_next (h.setReg (List.mem_singleton_self x) _).advance
  | addReg x _ | subReg x _ | shr x _ | subnReg x _ | shl x _ =>
    exact ensures_next (h.setFlagThenReg (.tail _ (.head _)) (.head _) _ _).advance
  | rnd x _ => exact ensures_next ((h.setReg (List.mem_singleton_self x) _).drawn rfl).advance
  | ldVxK x =>
    exact ensures_execLdVxK (fun b => (h.setReg (List.mem_singleton_self x) b).advance) h
  | drw _ _ _ =>
    exact ensures_guardRange (ensures_next
      ((h.setGfx rfl _).setReg (List.mem_singleton_self vf) _).advance)
  | ldDTVx _ => exact ensures_next (h.setDelayTimer rfl _).advance
  | ldSTVx _ => exact ensures_next (h.setSoundTimer rfl _).advance
  | ldI _ | addI _ | ldF _ => exact ensures_next (h.setIndex rfl _).advance
  | ldB _ => exact ensures_guardRange (ensures_next (h.storeBytes rfl).advance)
  | storeRegs x =>
    have hw : (writesOf s (.storeRegs x)).bytes = addressesFrom s.index (regRange s x).length := by
      rw [regRange_length]; rfl
    exact ensures_guardRange (ensures_next (h.storeBytes hw).advance)
  | loadRegs x =>
    refine ensures_guardRange (ensures_next (h.setRegs fun j hj => ofNat_mem_regsUpTo ?_).advance)
    simpa [rangeLength] using hj

/-! ## The invariant, part by part -/

section Invariant
variable {s : State}

/-- The return addresses in use are those of calls that were fetched (10_state R24). -/
def ReturnsBounded (s : State) : Prop :=
  ∀ j (h : j < 16), j < s.sp.val → s.stack[j].toNat ≤ 0xFFE

/-- No instruction takes memory out of its canonical form. -/
theorem exec_mem_wf (i : Instr) (h : Memory.wf s.mem) :
    Ensures (fun t => Memory.wf t.mem) (exec i s) := by
  cases i with
  | ldB _ | storeRegs _ =>
    exact ensures_guardRange (ensures_next (Memory.writeBytes_wf h _ _))
  | ret => exact ensures_execRet fun _ => h
  | call _ => exact ensures_execCall fun _ => h
  | drw _ _ _ => exact ensures_guardRange (ensures_next h)
  | loadRegs _ => exact ensures_guardRange (ensures_next (by simpa using h))
  | ldVxK _ => exact ensures_execLdVxK (fun _ => h) h
  | seImm _ _ | sneImm _ _ | seReg _ _ | sneReg _ _ | skp _ | sknp _ =>
    exact ensures_next (by simpa using h)
  | _ => exact ensures_next h

theorem advance_pc_le (h : s.pc.toNat ≤ 0xFFE) : s.advance.pc.toNat ≤ 0x10FE := by
  rw [State.advance_pc]; bv_omega

theorem skipIf_pc_le (h : s.pc.toNat ≤ 0xFFE) (c : Bool) : (s.skipIf c).pc.toNat ≤ 0x10FE := by
  rw [State.skipIf_pc]; split <;> bv_omega

/-- An instruction fetched inside memory leaves pc at most 0x10FE: Bnnn with nnn = 0xFFF and V0 =
0xFF reaches furthest (10_state R24). -/
theorem exec_pc_le (i : Instr) (hpc : s.pc.toNat ≤ 0xFFE) (hst : ReturnsBounded s) :
    Ensures (fun t => t.pc.toNat ≤ 0x10FE) (exec i s) := by
  cases i with
  | jp nnn =>
    refine ensures_next ?_
    rw [State.jump_pc, addrOf_toNat]; omega
  | call nnn =>
    refine ensures_execCall fun _ => ?_
    rw [State.jump_pc, addrOf_toNat]; omega
  | jpV0 nnn =>
    refine ensures_next ?_
    rw [State.jump_pc, offsetTarget_toNat]; omega
  | ret =>
    refine ensures_execRet fun hentry => ?_
    have htop := hst (s.sp.val - 1) (by omega) (by omega)
    rw [State.jump_pc]; bv_omega
  | seImm _ _ | sneImm _ _ | seReg _ _ | sneReg _ _ | skp _ | sknp _ =>
    exact ensures_next (skipIf_pc_le hpc _)
  | ldVxK _ => exact ensures_execLdVxK (fun _ => advance_pc_le hpc) (by omega)
  | drw _ _ _ | ldB _ | storeRegs _ => exact ensures_guardRange (ensures_next (advance_pc_le hpc))
  | loadRegs _ => exact ensures_guardRange (ensures_next (advance_pc_le (by simpa using hpc)))
  | _ => exact ensures_next (advance_pc_le hpc)

/-- A call fetched inside memory pushes a bounded address; a return only takes one off; no other
instruction has the stack in its frame. -/
theorem exec_returnsBounded (i : Instr) (hpc : s.pc.toNat ≤ 0xFFE) (hst : ReturnsBounded s) :
    Ensures ReturnsBounded (exec i s) := by
  cases i with
  | call _ =>
    refine ensures_execCall fun _ j h hj => ?_
    simp only [State.jump_stack, State.jump_sp, State.withStack_stack, State.withStack_sp] at hj ⊢
    rw [Vector.getElem_set]
    split
    · exact hpc
    · exact hst j h (by omega)
  | ret =>
    refine ensures_execRet fun _ j h hj => hst j h ?_
    simp only [State.jump_sp, State.withStack_sp] at hj
    omega
  | _ =>
    intro t ht j h hj
    obtain ⟨hstack, hsp⟩ := (exec_frame _ s t ht).stack rfl
    rw [hsp] at hj
    simpa only [hstack] using hst j h hj

/-- The tick is output only when ST counts down to 0 (40_cycle_engine R88). -/
theorem tick_soundTimer_of_soundTick (u : State) (h : (tick u).soundTick = true) :
    (tick u).soundTimer = 0 := by
  rw [tick_soundTick, beq_iff_eq] at h
  rw [tick_soundTimer, h]
  decide

end Invariant

/-! ## State that most instructions neither read nor write -/

/-- f changes no register, not I, pc, the stack or memory, and the updates of those commute with
it. -/
structure Bystander (f : State → State) : Prop where
  reg : ∀ s r, (f s).reg r = s.reg r
  index : ∀ s, (f s).index = s.index
  pc : ∀ s, (f s).pc = s.pc
  stack : ∀ s, (f s).stack = s.stack
  sp : ∀ s, (f s).sp = s.sp
  mem : ∀ s, (f s).mem = s.mem
  setReg : ∀ s x b, (f s).setReg x b = f (s.setReg x b)
  setIndex : ∀ s w, (f s).setIndex w = f (s.setIndex w)
  jump : ∀ s w, (f s).jump w = f (s.jump w)
  withStack : ∀ s slots depth, (f s).withStack slots depth = f (s.withStack slots depth)
  setMem : ∀ s m, (f s).setMem m = f (s.setMem m)

/-- The instructions that use the keys, the timers, the screen or the random byte. -/
def usesDevice : Instr → Bool
  | .cls | .drw _ _ _ | .skp _ | .sknp _ | .ldVxK _ => true
  | .ldVxDT _ | .ldDTVx _ | .ldSTVx _ | .rnd _ _ => true
  | _ => false

section Bystander
variable {f : State → State} (hf : Bystander f) (s : State)
include hf

theorem Bystander.advance : (f s).advance = f s.advance := by
  rw [State.advance, hf.pc, hf.jump]; rfl

theorem Bystander.skipIf (c : Bool) : (f s).skipIf c = f (s.skipIf c) := by
  cases c
  · exact hf.advance s
  · exact (hf.jump s _).trans (by rw [hf.pc]; rfl)

theorem Bystander.setFlagThenReg (flag b : Byte) (x : RegIdx) :
    (f s).setFlagThenReg flag x b = f (s.setFlagThenReg flag x b) := by
  simp only [State.setFlagThenReg, State.setFlag, hf.setReg]

theorem Bystander.setRegs (k : Nat) (bs : List Byte) :
    (f s).setRegs k bs = f (s.setRegs k bs) := by
  induction bs generalizing s k with
  | nil => rfl
  | cons b bs ih => simp only [State.setRegs, hf.setReg, ih]

theorem Bystander.regRange (x : RegIdx) : regRange (f s) x = regRange s x := by
  simp only [Machine.regRange, hf.reg]

omit hf in
theorem mapNext_next (t : State) : mapNext f (.next t) = .next (f t) := rfl

omit hf in
theorem mapNext_guardRange (base : Word) (len : Nat) (r : Result) :
    mapNext f (guardRange base len r) = guardRange base len (mapNext f r) := by
  unfold guardRange
  split <;> rfl

theorem Bystander.execCall (nnn : Addr12) :
    execCall nnn (f s) = mapNext f (execCall nnn s) := by
  have hsp := hf.sp s
  by_cases h : s.sp.val < 16
  · rw [execCall_room nnn h, execCall_room nnn (hsp ▸ h), hf.withStack, hf.jump]
    simp only [hf.stack, hf.sp, hf.pc, mapNext_next]
  · rw [execCall_full nnn h, execCall_full nnn (hsp ▸ h)]
    rfl

theorem Bystander.execRet : execRet (f s) = mapNext f (execRet s) := by
  have hsp := hf.sp s
  by_cases h : 0 < s.sp.val
  · rw [execRet_entry h, execRet_entry (hsp ▸ h), hf.withStack, hf.jump]
    simp only [hf.stack, hf.sp, mapNext_next]
  · rw [execRet_empty h, execRet_empty (hsp ▸ h)]
    rfl

/-- A draw cannot see a change that leaves gfx alone. -/
theorem Bystander.execDrw (hread : ∀ s, (f s).gfx = s.gfx)
    (hwrite : ∀ s g, (f s).setGfx g = f (s.setGfx g)) (x y : RegIdx) (n : BitVec 4) :
    execDrw x y n (f s) = mapNext f (execDrw x y n s) := by
  simp only [Machine.execDrw, State.setFlag, mapNext_guardRange, mapNext_next, hread, hwrite,
    hf.reg, hf.index, hf.mem, hf.setReg, hf.advance]

/-- A key wait cannot see a change that leaves the keys alone. -/
theorem Bystander.execLdVxK (hread : ∀ s, lowestKey (f s) = lowestKey s) (x : RegIdx) :
    execLdVxK x (f s) = mapNext f (execLdVxK x s) := by
  unfold Machine.execLdVxK
  rw [hread]
  cases lowestKey s with
  | none => rfl
  | some k => simp only [mapNext_next, hf.setReg, hf.advance]

/-- An instruction that uses no device does the same whatever a bystander has changed. -/
theorem exec_bystander (i : Instr) (hi : usesDevice i = false) :
    exec i (f s) = mapNext f (exec i s) := by
  cases i with
  | cls | drw _ _ _ | skp _ | sknp _ | ldVxK _ | ldVxDT _ | ldDTVx _ | ldSTVx _ | rnd _ _ =>
    cases hi
  | call nnn => exact hf.execCall s nnn
  | ret => exact hf.execRet s
  | jp _ | jpV0 _ => simp only [exec, execJp, execJpV0, mapNext_next, hf.reg, hf.jump]
  | seImm _ _ | sneImm _ _ | seReg _ _ | sneReg _ _ =>
    simp only [exec, execSeImm, execSneImm, execSeReg, execSneReg, mapNext_next, hf.reg, hf.skipIf]
  | ldImm _ _ | addImm _ _ | ldReg _ _ | orReg _ _ | andReg _ _ | xorReg _ _ =>
    simp only [exec, execLdImm, execAddImm, execLdReg, execOrReg, execAndReg, execXorReg,
      mapNext_next, hf.reg, hf.setReg, hf.advance]
  | addReg _ _ | subReg _ _ | shr _ _ | subnReg _ _ | shl _ _ =>
    simp only [exec, execAddReg, execSubReg, execShr, execSubnReg, execShl, mapNext_next, hf.reg,
      hf.setFlagThenReg, hf.advance]
  | ldI _ | addI _ | ldF _ =>
    simp only [exec, execLdI, execAddI, execLdF, mapNext_next, hf.reg, hf.index, hf.setIndex,
      hf.advance]
  | ldB _ | storeRegs _ =>
    simp only [exec, execLdB, execStoreRegs, mapNext_guardRange, mapNext_next, hf.reg, hf.regRange,
      hf.index, hf.mem, hf.setMem, hf.advance]
  | loadRegs _ =>
    simp only [exec, execLoadRegs, mapNext_guardRange, mapNext_next, hf.index, hf.mem, hf.setRegs,
      hf.advance]

end Bystander

theorem bystander_key (ks : Vector Bool 16) : Bystander fun s => { s with key := ks } := by
  constructor <;> intros <;> rfl

theorem bystander_soundTimer (b : Byte) : Bystander fun s => { s with soundTimer := b } := by
  constructor <;> intros <;> rfl

/-! ## Reset -/

/-- `initialize` leaves the reset table, whatever the state before it (70_reset_and_hazards R190). -/
theorem isInitialized_hostInitialize (s : State) : IsInitialized (hostInitialize s) where
  regs r := by simp [hostInitialize, State.reset, State.reg]
  index := rfl
  pc := rfl
  sp := rfl
  stack j := by simp [hostInitialize, State.reset]
  delayTimer := rfl
  soundTimer := rfl
  fontBytes a h _ := List.getD_eq_getElem font 0 h
  fontSize := rfl
  otherBytes a h := List.getD_eq_default font 0 h
  gfx p := BitVec.getLsbD_zero
  key k := by simp [hostInitialize, State.reset, State.keyDown]

/-! ## The obligations -/

/-- Settles O16: each part of the invariant is kept by the instruction and untouched by the tick. -/
theorem everyStepKeepsTheInvariant : Obligations.EveryStepKeepsTheInvariant := by
  intro s t hs h
  obtain ⟨i, u, hpc, -, he, rfl⟩ := step_next h
  exact
    { mem := exec_mem_wf i hs.mem u he
      pc := exec_pc_le i hpc hs.stack u he
      stack := exec_returnsBounded i hpc hs.stack u he
      tick := tick_soundTimer_of_soundTick u }

/-- Settles O12: the frame of each instruction, built from the frame rules of its operations. -/
theorem everyInstructionKeepsItsFrame : Obligations.EveryInstructionKeepsItsFrame :=
  fun i s => exec_frame i s

/-- Settles O13: the key mask is in no frame, and the tick keeps it. -/
theorem cyclesNeverWriteTheKeyMask : Obligations.CyclesNeverWriteTheKeyMask := by
  intro s t h
  obtain ⟨i, u, -, -, he, rfl⟩ := step_next h
  exact (exec_frame i s u he).key

/-- Settles O14: only Fx15 has DT in its frame, so that the tick counts the value DT had. -/
theorem delayTimerFallsUnlessWritten : Obligations.DelayTimerFallsUnlessWritten := by
  intro s t h hne
  obtain ⟨i, u, -, hd, he, rfl⟩ := step_next h
  have hw : (writesOf s i).delayTimer = false := by
    cases i with
    | ldDTVx x => exact absurd hd (hne x)
    | _ => rfl
  rw [tick_delayTimer, countDown_toNat, (exec_frame i s u he).delayTimer hw]

/-- Settles O19: the instructions that use no device cannot see the mask, and of the others only the
three key forms read it. -/
theorem keyMaskReachesOnlyKeyInstructions : Obligations.KeyMaskReachesOnlyKeyInstructions := by
  intro i s ks hne
  have hk := bystander_key ks
  cases i with
  | skp x => exact absurd rfl (hne x).1
  | sknp x => exact absurd rfl (hne x).2.1
  | ldVxK x => exact absurd rfl (hne x).2.2
  | drw x y n => exact hk.execDrw s (fun _ => rfl) (fun _ _ => rfl) x y n
  | cls | ldVxDT _ | ldDTVx _ | ldSTVx _ | rnd _ _ => rfl
  | _ => exact exec_bystander hk s _ rfl

/-- Settles O20: the instructions that use no device cannot see ST, and of the others only Fx18
touches it, overwriting it. -/
theorem soundTimerIsReadByNoInstruction : Obligations.SoundTimerIsReadByNoInstruction := by
  intro i s b
  refine ⟨fun hne => ?_, ?_⟩
  · have hb := bystander_soundTimer b
    cases i with
    | ldSTVx x => exact absurd rfl (hne x)
    | drw x y n => exact hb.execDrw s (fun _ => rfl) (fun _ _ => rfl) x y n
    | skp _ | sknp _ => exact congrArg Host.Outcome.next (hb.skipIf s _)
    | ldVxK x => exact hb.execLdVxK s (fun _ => rfl) x
    | cls | ldVxDT _ | ldDTVx _ | rnd _ _ => rfl
    | _ => exact exec_bystander hb s _ rfl
  · rintro x rfl
    rfl

/-- Settles O15: reset lists no byte, uses no stack entry and has pc at 0x200. -/
theorem resetMeetsTheInvariant : Obligations.ResetMeetsTheInvariant where
  mem := Memory.wf_nil
  pc := by decide
  stack j _ hj := absurd hj (Nat.not_lt_zero j)
  tick _ := rfl

/-- Settles O55: reset is what `initialize` leaves of the reset state itself. -/
theorem initializeLeavesTheResetTable : Obligations.InitializeLeavesTheResetTable :=
  ⟨isInitialized_hostInitialize State.reset, fun s => ⟨isInitialized_hostInitialize s, rfl⟩⟩

end Sys2Proof.Machine

/-!
The proofs about memory (20_memory): the word a fetch reads, and that a store is seen by the next one.
-/

namespace Sys2Proof.Machine

/-! ## The word of two bytes -/

/-- The first of two bytes is the high one (20_memory R44). -/
theorem append_toNat (hi lo : Byte) : (hi ++ lo).toNat = hi.toNat * 256 + lo.toNat := by
  rw [BitVec.toNat_append, ← Nat.shiftLeft_add_eq_or_of_lt lo.isLt, Nat.shiftLeft_eq]

/-! ## A register dump -/

section Store
variable {s t : State} {x : RegIdx}

/-- A step that succeeds at a word known to decode ran that word's instruction (40_cycle_engine R81). -/
theorem step_next_of_decode {i : Instr} (hd : decodeWord (wordAtPc s) = some i)
    (h : step s = .next t) : s.pc.toNat ≤ 0xFFE ∧ ∃ u, exec i s = .next u ∧ t = tick u := by
  obtain ⟨j, u, hpc, hj, he, ht⟩ := step_next h
  obtain rfl : i = j := Option.some.inj (hd.symm.trans hj)
  exact ⟨hpc, u, he, ht⟩

/-- Memory after Fx55: V0 to Vx stored from I up (43_index_and_memory R134). -/
def storedMem (s : State) (x : RegIdx) : Memory :=
  Memory.writeBytes s.mem s.index.toNat (regRange s x)

/-- An Fx55 that succeeds stays inside memory, stores its registers and goes on. -/
theorem execStoreRegs_next (h : exec (.storeRegs x) s = .next t) :
    s.index.toNat + x.toNat ≤ 0xFFF ∧ t = (s.setMem (storedMem s x)).advance := by
  obtain ⟨hrange, ht⟩ := guardRange_next h
  rw [rangeLength] at hrange
  exact ⟨by omega, (Host.Outcome.next.inj ht).symm⟩

/-- After Fx55, an address of its range reads as the register stored there. -/
theorem read_storedMem (hm : Memory.wf s.mem) (hrange : s.index.toNat + x.toNat ≤ 0xFFF) {a : Nat}
    (hlo : s.index.toNat ≤ a) (hhi : a ≤ s.index.toNat + x.toNat) :
    Memory.read (storedMem s x) a = s.reg (BitVec.ofNat 4 (a - s.index.toNat)) := by
  have hk : a - s.index.toNat < (regRange s x).length := by rw [regRange_length]; omega
  have hfit : s.index.toNat + (regRange s x).length ≤ Config.memSize := by
    rw [regRange_length, Config.memSize]; omega
  have hread := Memory.read_writeBytes_inside hm s.index.toNat (regRange s x) hfit hk
  rwa [Nat.add_sub_cancel' hlo, regRange_getElem] at hread

end Store

/-! ## The obligations -/

/-- Settles O6: the fetch joins the two bytes at pc, the first one high. -/
theorem fetchIsBigEndian : Obligations.FetchIsBigEndian :=
  fun _ hpc => ⟨_, fetchWord_ok hpc, append_toNat _ _⟩

/-- Settles O44: the next fetch reads two addresses of the range that the Fx55 has just stored. -/
theorem storeIsSeenByTheNextFetch : Obligations.StoreIsSeenByTheNextFetch := by
  intro s t x hm hd hstep hlo hhi
  obtain ⟨hpc, u, hexec, rfl⟩ := step_next_of_decode hd hstep
  obtain ⟨hrange, rfl⟩ := execStoreRegs_next hexec
  have hnext : (s.pc + 2).toNat = s.pc.toNat + 2 := by bv_omega
  rw [fetchWord_ok (by simp only [tick_pc, State.advance_pc, State.setMem_pc]; omega)]
  simp only [tick_pc, tick_mem, State.advance_pc, State.advance_mem, State.setMem_pc,
    State.setMem_mem, hnext]
  rw [read_storedMem hm hrange hlo (by omega), read_storedMem hm hrange (by omega) hhi]

end Sys2Proof.Machine

/-!
The proofs about encoding (30_encoding): decoding and encoding undo each other, a word selects a row
of the opcode map exactly when it decodes to an instruction of that row, and the words that do not
decode are the listed ones.
-/

namespace Sys2Proof

/-! ## Decoding an encoding -/

/-- The decoder reads every operand back from its field (30_encoding R61, R64). -/
theorem decodeWord_encode (i : Instr) : decodeWord (encode i) = some i := by
  cases i with
  | cls | ret => rfl
  | jp _ | call _ | ldI _ | jpV0 _ => simp [encode, decodeWord]
  | seImm _ _ | sneImm _ _ | ldImm _ _ | addImm _ _ | rnd _ _ => simp [encode, decodeWord]
  | seReg _ _ | sneReg _ _ | drw _ _ _ => simp [encode, decodeWord]
  | ldReg _ _ | orReg _ _ | andReg _ _ | xorReg _ _ | addReg _ _ | subReg _ _ | shr _ _
  | subnReg _ _ | shl _ _ => simp [encode, decodeWord, decodeFamily8]
  | skp _ | sknp _ => simp [encode, decodeWord, decodeFamilyE]
  | ldVxDT _ | ldVxK _ | ldDTVx _ | ldSTVx _ | addI _ | ldF _ | ldB _ | storeRegs _
  | loadRegs _ => simp [encode, decodeWord, decodeFamilyF]

/-- The bytes of a word decode as the word does (20_memory R44). -/
theorem decodeBytes_bytesOfWord {w : Word} {i : Instr} (h : decodeWord w = some i)
    (rest : List Byte) : decodeBytes (bytesOfWord w ++ rest) = .instr i rest := by
  simp [bytesOfWord, decodeBytes, wordOfBytes_bytesOfWord, h]

/-! ## The families with a second selection (30_encoding R65) -/

section Families
variable {w : Word} {i : Instr}

theorem encode_of_decodeFamily0 (h : decodeFamily0 w = some i) : encode i = w := by
  simp only [decodeFamily0] at h
  split_ifs at h with hw hw <;> cases h <;> exact hw.symm

theorem encode_of_decodeFamily8 (hop : fieldOp w = 0x8) (h : decodeFamily8 w = some i) :
    encode i = w := by
  simp only [decodeFamily8] at h
  have hw := word_eq_xyn w
  split_ifs at h with hn hn hn hn hn hn hn hn hn <;> cases h <;> rwa [hop, hn] at hw

theorem encode_of_decodeFamilyE (hop : fieldOp w = 0xE) (h : decodeFamilyE w = some i) :
    encode i = w := by
  simp only [decodeFamilyE] at h
  have hw := word_eq_xnn w
  split_ifs at h with hnn hnn <;> cases h <;> rwa [hop, hnn] at hw

theorem encode_of_decodeFamilyF (hop : fieldOp w = 0xF) (h : decodeFamilyF w = some i) :
    encode i = w := by
  simp only [decodeFamilyF] at h
  have hw := word_eq_xnn w
  split_ifs at h with hnn hnn hnn hnn hnn hnn hnn hnn hnn <;> cases h <;> rwa [hop, hnn] at hw

/-- A chain of tests gives no instruction exactly when every test of it fails. -/
theorem ite_some_eq_none {c : Prop} [Decidable c] {o : Option Instr} :
    (if c then some i else o) = none ↔ ¬ c ∧ o = none := by
  split_ifs with hc <;> simp [hc]

theorem decodeFamily0_eq_none_iff : decodeFamily0 w = none ↔ w ≠ 0x00E0 ∧ w ≠ 0x00EE := by
  simp [decodeFamily0, ite_some_eq_none]

/-- Family 8 leaves seven values of n without an instruction (30_encoding R66). -/
theorem decodeFamily8_eq_none_iff :
    decodeFamily8 w = none ↔ fieldN w ∈ [0x8#4, 0x9, 0xA, 0xB, 0xC, 0xD, 0xF] := by
  simp only [decodeFamily8, ite_some_eq_none, and_true]
  generalize fieldN w = n
  decide +revert

theorem decodeFamilyE_eq_none_iff : decodeFamilyE w = none ↔ fieldNN w ∉ [0x9E#8, 0xA1] := by
  simp [decodeFamilyE, ite_some_eq_none]

theorem decodeFamilyF_eq_none_iff : decodeFamilyF w = none ↔
    fieldNN w ∉ [0x07#8, 0x0A, 0x15, 0x18, 0x1E, 0x29, 0x33, 0x55, 0x65] := by
  simp [decodeFamilyF, ite_some_eq_none]

end Families

/-! ## Encoding a decoding -/

/-- The op field names one format (NNN, XNN, XY, XYN) or one of the families 0, 8, E, F
(30_encoding R62, R65). -/
theorem op_cases (o : BitVec 4) :
    o = 0x0 ∨ (o = 0x1 ∨ o = 0x2 ∨ o = 0xA ∨ o = 0xB) ∨
    (o = 0x3 ∨ o = 0x4 ∨ o = 0x6 ∨ o = 0x7 ∨ o = 0xC) ∨ (o = 0x5 ∨ o = 0x9) ∨ o = 0xD ∨
    o = 0x8 ∨ o = 0xE ∨ o = 0xF := by
  decide +revert

/-- A word that decodes is its fixed digits and its fields, put together again (30_encoding R62). -/
theorem encode_of_decodeWord {w : Word} {i : Instr} (h : decodeWord w = some i) : encode i = w := by
  rcases op_cases (fieldOp w) with h0 | hnnn | hxnn | hxy | hD | h8 | hE | hF
  · exact encode_of_decodeFamily0 (by simpa [decodeWord, h0] using h)
  · have hw := word_eq_nnn w
    rcases hnnn with hop | hop | hop | hop <;>
    · obtain rfl : _ = i := by simpa [decodeWord, hop] using h
      rwa [hop] at hw
  · have hw := word_eq_xnn w
    rcases hxnn with hop | hop | hop | hop | hop <;>
    · obtain rfl : _ = i := by simpa [decodeWord, hop] using h
      rwa [hop] at hw
  · have hw := word_eq_xyn w
    rcases hxy with hop | hop <;>
    · obtain ⟨hn, rfl⟩ : fieldN w = 0x0 ∧ _ = i := by simpa [decodeWord, hop] using h
      rwa [hop, hn] at hw
  · have hw := word_eq_xyn w
    obtain rfl : _ = i := by simpa [decodeWord, hD] using h
    rwa [hD] at hw
  · exact encode_of_decodeFamily8 h8 (by simpa [decodeWord, h8] using h)
  · exact encode_of_decodeFamilyE hE (by simpa [decodeWord, hE] using h)
  · exact encode_of_decodeFamilyF hF (by simpa [decodeWord, hF] using h)

/-! ## Masks (30_encoding R64) -/

section Masks
variable {w v : Word}

/-- A field that the mask keeps whole is that field of the masked word. -/
theorem extractLsb'_of_mask {m : Word} (h : w &&& m = v) {start len : Nat}
    (hm : m.extractLsb' start len = BitVec.allOnes len) :
    w.extractLsb' start len = v.extractLsb' start len := by
  rw [← h, BitVec.extractLsb'_and, hm, BitVec.and_allOnes]

theorem eq_of_mask_all (h : w &&& 0xFFFF = v) : w = v := BitVec.and_allOnes.symm.trans h

theorem fieldOp_of_mask (h : w &&& 0xF000 = v) : fieldOp w = v.extractLsb' 12 4 :=
  extractLsb'_of_mask h (by decide)

theorem fieldOp_fieldN_of_mask (h : w &&& 0xF00F = v) :
    fieldOp w = v.extractLsb' 12 4 ∧ fieldN w = v.extractLsb' 0 4 :=
  ⟨extractLsb'_of_mask h (by decide), extractLsb'_of_mask h (by decide)⟩

theorem fieldOp_fieldNN_of_mask (h : w &&& 0xF0FF = v) :
    fieldOp w = v.extractLsb' 12 4 ∧ fieldNN w = v.extractLsb' 0 8 :=
  ⟨extractLsb'_of_mask h (by decide), extractLsb'_of_mask h (by decide)⟩

end Masks

/-! ## The opcode map (30_encoding R64) -/

/-- A word that selects an instruction's row has the row's fixed digits, and these are all that the
decoder tests. -/
theorem decodeWord_of_selects {w : Word} (i : Instr) (h : i.row.selects w = true) :
    (decodeWord w).map Instr.row = some i.row := by
  have hmask : w &&& i.row.mask = i.row.value := eq_of_beq h
  cases i with
  | cls | ret => rw [eq_of_mask_all hmask]; rfl
  | jp _ | call _ | ldI _ | jpV0 _ | seImm _ _ | sneImm _ _ | ldImm _ _ | addImm _ _ | rnd _ _
  | drw _ _ _ => simp [decodeWord, fieldOp_of_mask hmask, Instr.row]
  | seReg _ _ | sneReg _ _ =>
    obtain ⟨hop, hn⟩ := fieldOp_fieldN_of_mask hmask
    simp [decodeWord, hop, hn, Instr.row]
  | ldReg _ _ | orReg _ _ | andReg _ _ | xorReg _ _ | addReg _ _ | subReg _ _ | shr _ _
  | subnReg _ _ | shl _ _ =>
    obtain ⟨hop, hn⟩ := fieldOp_fieldN_of_mask hmask
    simp [decodeWord, decodeFamily8, hop, hn, Instr.row]
  | skp _ | sknp _ =>
    obtain ⟨hop, hnn⟩ := fieldOp_fieldNN_of_mask hmask
    simp [decodeWord, decodeFamilyE, hop, hnn, Instr.row]
  | ldVxDT _ | ldVxK _ | ldDTVx _ | ldSTVx _ | addI _ | ldF _ | ldB _ | storeRegs _
  | loadRegs _ =>
    obtain ⟨hop, hnn⟩ := fieldOp_fieldNN_of_mask hmask
    simp [decodeWord, decodeFamilyF, hop, hnn, Instr.row]

/-- Every row of the map is an instruction's: its value decodes to an instruction of the row. -/
theorem decodeWord_row_value : ∀ r ∈ opcodeMap, (decodeWord r.value).map Instr.row = some r := by
  decide

theorem row_mem_and_selects_encode (i : Instr) :
    i.row ∈ opcodeMap ∧ i.row.selects (encode i) = true := by
  open Laws.EncodingRow in
  cases i
  exacts [cls, ret, jp _, call _, seImm _ _, sneImm _ _, seReg _ _, ldImm _ _, addImm _ _,
    ldReg _ _, orReg _ _, andReg _ _, xorReg _ _, addReg _ _, subReg _ _, shr _ _, subnReg _ _,
    shl _ _, sneReg _ _, ldI _, jpV0 _, rnd _ _, drw _ _ _, skp _, sknp _, ldVxDT _, ldVxK _,
    ldDTVx _, ldSTVx _, addI _, ldF _, ldB _, storeRegs _, loadRegs _]

/-- The map and the decoder agree: a word selects the row of the instruction it decodes to, and no
other. -/
theorem selects_iff_decodeWord {r : OpRow} (hr : r ∈ opcodeMap) (w : Word) :
    r.selects w = true ↔ (decodeWord w).map Instr.row = some r := by
  constructor
  · intro hsel
    obtain ⟨i, -, rfl⟩ := Option.map_eq_some_iff.1 (decodeWord_row_value r hr)
    exact decodeWord_of_selects i hsel
  · intro hrow
    obtain ⟨i, hi, rfl⟩ := Option.map_eq_some_iff.1 hrow
    rw [← encode_of_decodeWord hi]
    exact (row_mem_and_selects_encode i).2

/-- The map lists an instruction's row once. -/
theorem filter_opcodeMap_eq_row (i : Instr) : opcodeMap.filter (· = i.row) = [i.row] := by
  have hnodup : opcodeMap.Nodup := by decide
  rw [List.filter_eq, List.count_eq_one_of_mem hnodup (row_mem_and_selects_encode i).1,
    List.replicate_one]

theorem filter_selects_of_decodeWord {w : Word} {i : Instr} (h : decodeWord w = some i) :
    opcodeMap.filter (OpRow.selects · w) = [i.row] := by
  rw [← filter_opcodeMap_eq_row i]
  refine List.filter_congr fun r hr => Bool.eq_iff_iff.2 ?_
  rw [selects_iff_decodeWord hr, h]
  simp [eq_comm]

theorem filter_selects_of_undecodable {w : Word} (h : decodeWord w = none) :
    opcodeMap.filter (OpRow.selects · w) = [] := by
  refine List.filter_eq_nil_iff.2 fun r hr => ?_
  rw [selects_iff_decodeWord hr, h]
  simp

/-! ## The unsupported words (30_encoding R66)

The rule's table is written with the bits of a word, the decoder with the names of its fields. The
names are put back by `rw` and not by `rfl`, so that `simp` rewrites the tests of the table together
with their decision procedures. -/

theorem extractLsb'_eq_fieldOp (w : Word) : w.extractLsb' 12 4 = fieldOp w := by rw [fieldOp]

theorem extractLsb'_eq_fieldN (w : Word) : w.extractLsb' 0 4 = fieldN w := by rw [fieldN]

theorem extractLsb'_eq_fieldNN (w : Word) : w.extractLsb' 0 8 = fieldNN w := by rw [fieldNN]

theorem decodeWord_eq_none_iff (w : Word) : decodeWord w = none ↔ wordUnsupported w = true := by
  simp only [decodeWord, wordUnsupported, extractLsb'_eq_fieldOp, extractLsb'_eq_fieldN,
    extractLsb'_eq_fieldNN]
  rcases op_cases (fieldOp w) with h0 | hnnn | hxnn | hxy | hD | h8 | hE | hF
  · simp [h0, decodeFamily0_eq_none_iff]
  · rcases hnnn with hop | hop | hop | hop <;> simp [hop]
  · rcases hxnn with hop | hop | hop | hop | hop <;> simp [hop]
  · rcases hxy with hop | hop <;> simp [hop]
  · simp [hD]
  · simp [h8, decodeFamily8_eq_none_iff]
  · simp [hE, decodeFamilyE_eq_none_iff]
  · simp [hF, decodeFamilyF_eq_none_iff]

/-! ## The obligations -/

/-- Settles O1: the bytes make the word again, and the word gives its instruction back. -/
theorem decodeOfEncodeIsIdentity : Obligations.DecodeOfEncodeIsIdentity :=
  fun i => decodeBytes_bytesOfWord (decodeWord_encode i)

/-- Settles O2, format by format. -/
theorem encodeOfDecodeIsIdentity : Obligations.EncodeOfDecodeIsIdentity :=
  fun _ _ => encode_of_decodeWord

/-- Settles O3: the rows a word selects are those of the instruction it decodes to. -/
theorem everyWordSelectsOneRowOrNone : Obligations.EveryWordSelectsOneRowOrNone := by
  intro w
  cases hd : decodeWord w with
  | some i => exact .inl ⟨i, rfl, filter_selects_of_decodeWord hd⟩
  | none => exact .inr ⟨rfl, filter_selects_of_undecodable hd⟩

/-- Settles O4, family by family as R66 lists them. -/
theorem unsupportedWordsAreTheTables : Obligations.UnsupportedWordsAreTheTables :=
  decodeWord_eq_none_iff

/-- Settles O5 by decoding each word. -/
theorem sampleWordsDecodeAsListed : Obligations.SampleWordsDecodeAsListed := by
  unfold Obligations.SampleWordsDecodeAsListed
  decide

end Sys2Proof

/-!
The proofs about the cycle (40_cycle_engine): what ends it after a success and after an error, the one
pc change of each instruction, and that only Cxnn sees the random bytes.
-/

namespace Sys2Proof.Machine

section Cycle
variable {s t u : State}

/-! ## The cycle of a word that decodes -/

theorem step_next_of_exec_next {i : Instr} (hpc : s.pc.toNat ≤ 0xFFE)
    (hd : decodeWord (wordAtPc s) = some i) (he : exec i s = .next u) :
    step s = .next (tick u) :=
  (step_of_decode hpc hd).trans (congrArg endCycle he)

theorem step_fault_of_exec_fault {i : Instr} {f : Fault} (hpc : s.pc.toNat ≤ 0xFFE)
    (hd : decodeWord (wordAtPc s) = some i) (he : exec i s = .fault f) : step s = .fault f :=
  (step_of_decode hpc hd).trans (congrArg endCycle he)

/-! ## The cycle as the host sees it -/

theorem executeCycle_of_next (h : step s = .next t) : executeCycle s = ⟨t, none, t.soundTick⟩ := by
  rw [executeCycle, h]

theorem executeCycle_of_fault {f : Fault} (h : step s = .fault f) :
    executeCycle s = ⟨s, some f, false⟩ := by
  rw [executeCycle, h]

/-- The host is told of an error only when the step faults with it. -/
theorem step_fault_of_executeCycle_error {f : Fault} (h : (executeCycle s).error = some f) :
    step s = .fault f := by
  unfold executeCycle at h
  split at h
  case h_2 g hg => exact hg.trans (congrArg Host.Outcome.fault (Option.some.inj h))
  all_goals cases h

/-! ## The timer tick -/

theorem tick_soundTick_iff (u : State) : (tick u).soundTick = true ↔ u.soundTimer = 1 := by
  rw [tick_soundTick, beq_iff_eq]

/-- Apart from the field that keeps its output (log 1), the tick writes the two timers only. -/
theorem frame_tick (s : State) :
    Frame { delayTimer := true, soundTimer := true } s { tick s with soundTick := s.soundTick } :=
  ((Frame.refl _ s).setDelayTimer rfl _).setSoundTimer rfl _

theorem fetchWord_tick (s : State) : fetchWord (tick s) = fetchWord s := rfl

/-! ## The key wait -/

theorem execLdVxK_blocked (x : RegIdx) (h : lowestKey s = none) : execLdVxK x s = .next s := by
  rw [execLdVxK, h]

theorem execLdVxK_pressed (x : RegIdx) {k : BitVec 4} (h : lowestKey s = some k) :
    execLdVxK x s = .next (s.setReg x (k.setWidth 8)).advance := by
  rw [execLdVxK, h]

/-! ## The pc change of each instruction -/

theorem advance_pc_toNat (s : State) : s.advance.pc.toNat = (s.pc.toNat + 2) % 65536 :=
  BitVec.toNat_add s.pc 2

theorem skip_pc_toNat (s : State) : s.skip.pc.toNat = (s.pc.toNat + 4) % 65536 :=
  BitVec.toNat_add s.pc 4

/-- The table's row of a conditional instruction is the skip on its condition. -/
theorem skipIf_pc_toNat {i : Instr} {c : Bool} (h : skipCondition s i = some c) :
    (s.skipIf c).pc.toNat = pcAfter s i := by
  cases i with
  | seImm _ _ | sneImm _ _ | seReg _ _ | sneReg _ _ | skp _ | sknp _ =>
    simp only [pcAfter, h]
    cases c
    · exact advance_pc_toNat s
    · exact skip_pc_toNat s
  | _ => cases h

/-- The key of 45_keys_and_timers R150 as the table writes it. -/
theorem keyIndex_eq_setWidth (b : Byte) : keyIndex b = b.setWidth 4 :=
  BitVec.eq_of_toNat_eq ((keyIndex_toNat b).trans (BitVec.toNat_setWidth 4 b).symm)

/-- A pop inside the stack reads the table's top entry. -/
theorem return_pc_toNat (h : s.sp.val - 1 < 16) :
    (s.stack[s.sp.val - 1] + 2).toNat = pcAfter s .ret := by
  rw [pcAfter, List.getD_eq_getElem _ _ (by simpa using h), Vector.getElem_toList]
  exact BitVec.toNat_add _ 2

/-- A key wait goes on exactly when some key is down. -/
theorem execLdVxK_pc (x : RegIdx) (s : State) :
    Ensures (fun t => t.pc.toNat = pcAfter s (.ldVxK x)) (execLdVxK x s) := by
  rw [pcAfter]
  cases hk : lowestKey s with
  | none =>
    have hup := (lowestKey_eq_none_iff s).1 hk
    rw [execLdVxK_blocked x hk, if_neg (by simp [hup])]
    exact ensures_next rfl
  | some k =>
    rw [execLdVxK_pressed x hk, if_pos ⟨k, (lowestKey_some hk).1⟩]
    exact ensures_next (advance_pc_toNat _)

theorem exec_pc (i : Instr) (s : State) :
    Ensures (fun t => t.pc.toNat = pcAfter s i) (exec i s) := by
  cases i with
  | jp nnn => exact ensures_next (addrOf_toNat nnn)
  | call nnn => exact ensures_execCall fun _ => addrOf_toNat nnn
  | jpV0 nnn => exact ensures_next (offsetTarget_toNat nnn _)
  | ret => exact ensures_execRet fun _ => return_pc_toNat _
  | seImm _ _ | seReg _ _ => exact ensures_next (skipIf_pc_toNat rfl)
  | sneImm _ _ | sneReg _ _ =>
    exact ensures_next (skipIf_pc_toNat (congrArg some (decide_not)))
  | skp _ | sknp _ =>
    exact ensures_next (skipIf_pc_toNat (by rw [skipCondition, keyIndex_eq_setWidth]))
  | ldVxK x => exact execLdVxK_pc x s
  | drw _ _ _ | ldB _ | storeRegs _ =>
    exact ensures_guardRange (ensures_next (advance_pc_toNat _))
  | loadRegs _ =>
    refine ensures_guardRange (ensures_next ((advance_pc_toNat _).trans ?_))
    rw [State.setRegs_pc]
    rfl
  | _ => exact ensures_next (advance_pc_toNat _)

end Cycle

/-! ## The random bytes -/

theorem bystander_randomDraws (n : Nat) : Bystander fun s => { s with randomDraws := n } := by
  constructor <;> intros <;> rfl

/-! ## The obligations -/

/-- Settles O8: the cycle ends with the tick of the state the instruction left. -/
theorem timersCountAfterEverySuccess : Obligations.TimersCountAfterEverySuccess := by
  intro s u i hpc hd he
  have hstep := step_next_of_exec_next hpc hd he
  refine ⟨tick u, hstep, countDown_toNat _, countDown_toNat _, ?_, rfl⟩
  rw [executeCycle_of_next hstep]
  exact tick_soundTick_iff u

/-- Settles O11: the pc change of each instruction, from those of the operations it ends with. -/
theorem everyPcChangeIsTheTables : Obligations.EveryPcChangeIsTheTables :=
  fun i s => exec_pc i s

/-- Settles O18: the instructions that use no device cannot see the count, and of the others only
Cxnn reads it. -/
theorem randomBytesReachOnlyRnd : Obligations.RandomBytesReachOnlyRnd := by
  intro i s n hne
  have hn := bystander_randomDraws n
  cases i with
  | rnd x nn => exact absurd rfl (hne x nn)
  | drw x y k => exact hn.execDrw s (fun _ => rfl) (fun _ _ => rfl) x y k
  | skp _ | sknp _ => exact congrArg Host.Outcome.next (hn.skipIf s _)
  | ldVxK x => exact hn.execLdVxK s (fun _ => rfl) x
  | cls | ldVxDT _ | ldDTVx _ | ldSTVx _ => rfl
  | _ => exact exec_bystander hn s _ rfl

/-- Settles O52: with no key down the instruction keeps the whole state, so the cycle is its tick. -/
theorem blockedKeyWaitOnlyTicks : Obligations.BlockedKeyWaitOnlyTicks := by
  intro s x hpc hd hup
  exact ⟨tick s, step_next_of_exec_next hpc hd (execLdVxK_blocked x (lowestKey_none hup)),
    rfl, rfl, countDown_toNat _, countDown_toNat _, tick_soundTick_iff s, frame_tick s, fetchWord_tick s⟩

/-- Settles O7: the end of the cycle ticks after a success and passes a fault on. -/
theorem stepRunsTheDecodedInstruction : Obligations.StepRunsTheDecodedInstruction :=
  fun _ _ hpc hd =>
    ⟨fun _ he => step_next_of_exec_next hpc hd he, fun _ he => step_fault_of_exec_fault hpc hd he⟩

/-- Settles O9: an error is a fault of the step, which leaves the same state to the next cycle. -/
theorem errorCycleChangesNothing : Obligations.ErrorCycleChangesNothing := by
  intro s f h
  have hcycle := executeCycle_of_fault (step_fault_of_executeCycle_error h)
  simp only [hcycle, and_self]

end Sys2Proof.Machine

/-!
The proofs about control flow (41_control_flow): the jumps, the call and the return that matches it,
and the skips on a comparison.
-/

namespace Sys2Proof.Machine

section ControlFlow
variable {s : State}

/-! ## Calls and returns -/

/-- After a push the slot at sp holds the pushed word, and every other slot what it held. -/
theorem stack_set_getElem (hroom : s.sp.val < 16) (w : Word) (j : Fin 16) :
    (s.stack.set s.sp.val w hroom)[j] = if j.val = s.sp.val then w else s.stack[j] := by
  simp only [Fin.getElem_fin, Vector.getElem_set, eq_comm]

/-- A return takes its target from the slot below sp, which is then the new sp. -/
theorem execRet_top {j : Fin 16} (htop : s.sp.val = j.val + 1) :
    execRet s = .next ((s.withStack s.stack j.castSucc).jump (s.stack[j] + 2)) := by
  have hj : s.sp.val - 1 = j.val := by omega
  simp only [execRet_entry (s := s) (by omega), hj]
  rfl

/-! ## Skips -/

/-- An instruction that skips on a condition c, where c decides p, does nothing else. -/
theorem exec_skipIf {i : Instr} {c : Bool} {p : Prop} [Decidable p]
    (he : exec i s = .next (s.skipIf c)) (hc : c = true ↔ p) :
    ∃ t, exec i s = .next t ∧ t.pc = (if p then s.pc + 4 else s.pc + 2) ∧ Frame {} s t :=
  ⟨s.skipIf c, he, (State.skipIf_pc s c).trans (if_congr hc rfl rfl), (Frame.refl {} s).skipIf c⟩

end ControlFlow

/-- Families 5 and 9 decode with n = 0 only (30_encoding R65, D10). -/
theorem decodeWord_compare_eq_none {o : BitVec 4} (ho : o = 0x5 ∨ o = 0x9) (x y : RegIdx)
    {n : BitVec 4} (hn : n ≠ 0) : decodeWord (o ++ x ++ y ++ n) = none := by
  rcases ho with rfl | rfl
  · simpa [decodeWord] using hn
  · simpa [decodeWord] using hn

/-! ## The obligations -/

/-- Settles O22: the address field fits in pc, and the jump writes only pc. -/
theorem jumpSetsPc : Obligations.JumpSetsPc := fun nnn s =>
  ⟨decodeWord_encode (.jp nnn), _, rfl, addrOf_toNat nnn, (Frame.refl {} s).jump _⟩

/-- Settles O23: nnn + V0 fits in 16 bits, so that the sum is exact. -/
theorem jumpOffsetAddsVZero : Obligations.JumpOffsetAddsVZero := fun nnn s =>
  ⟨decodeWord_encode (.jpV0 nnn), _, rfl, offsetTarget_toNat nnn _, (Frame.refl {} s).jump _⟩

/-- Settles O24: the push writes the slot at sp, the jump only pc. -/
theorem callPushesItsOwnAddress : Obligations.CallPushesItsOwnAddress := fun nnn s =>
  ⟨decodeWord_encode (.call nnn), fun hroom =>
    ⟨_, execCall_room nnn hroom, addrOf_toNat nnn, rfl, stack_set_getElem hroom s.pc,
      ((Frame.refl _ s).withStack rfl _ _).jump _⟩⟩

/-- Settles O25: the slot a return pops keeps its value. -/
theorem returnPopsTheTopEntry : Obligations.ReturnPopsTheTopEntry :=
  ⟨decodeWord_encode .ret, fun s _ htop =>
    ⟨_, execRet_top htop, rfl, rfl, rfl, ((Frame.refl _ s).withStack rfl _ _).jump _⟩⟩

/-- Settles O27: the return pops the slot that the call pushed its address to, and the slots below it
are those of before the call. -/
theorem returnResumesAfterTheCall : Obligations.ReturnResumesAfterTheCall := by
  intro nnn s hroom
  obtain ⟨t, hcall, -, htsp, hslots, -⟩ := (callPushesItsOwnAddress nnn s).2 hroom
  refine ⟨t, hcall, fun t' hstack hsp => ?_⟩
  obtain ⟨u, hret, hupc, husp, hustack, hframe⟩ :=
    returnPopsTheTopEntry.2 t' ⟨s.sp.val, hroom⟩ (hsp ▸ htsp)
  refine ⟨u, hret, ?_, Fin.ext husp, fun j hj => ?_, hframe⟩
  · rw [hupc, hstack, hslots, if_pos rfl]
  · rw [hustack, hstack, hslots, if_neg hj.ne]

/-- Settles O28: each of the two forms ends with the skip on its comparison. -/
theorem skipComparesWithImmediate : Obligations.SkipComparesWithImmediate := fun x nn _ =>
  ⟨⟨decodeWord_encode (.seImm x nn), exec_skipIf rfl beq_iff_eq⟩,
    ⟨decodeWord_encode (.sneImm x nn), exec_skipIf rfl bne_iff_ne⟩⟩

/-- Settles O29: each of the two forms ends with the skip on its comparison, and its family tests n. -/
theorem skipComparesRegisters : Obligations.SkipComparesRegisters := fun x y _ =>
  ⟨⟨decodeWord_encode (.seReg x y), fun _ => decodeWord_compare_eq_none (.inl rfl) x y,
      exec_skipIf rfl beq_iff_eq⟩,
    ⟨decodeWord_encode (.sneReg x y), fun _ => decodeWord_compare_eq_none (.inr rfl) x y,
      exec_skipIf rfl bne_iff_ne⟩⟩

end Sys2Proof.Machine

/-!
The proofs about loads, arithmetic, logic and random (42_load_and_alu): each form writes one result to
Vx, the flag-writing ones the flag to VF before it, and goes on.
-/

namespace Sys2Proof.Machine

/-! ## The flags as integers (10_state R22) -/

theorem flagByte_decide (p : Prop) [Decidable p] : flagByte (decide p) = if p then 1 else 0 := by
  simp only [flagByte, decide_eq_true_eq]

theorem flagByte_toNat (c : Bool) : (flagByte c).toNat = c.toNat := by
  cases c <;> rfl

/-- A bit moved out into VF is that binary digit of the value shifted. -/
theorem flagByte_getLsbD_toNat (a : Byte) (k : Nat) :
    (flagByte (a.getLsbD k)).toNat = a.toNat / 2 ^ k % 2 := by
  rw [flagByte_toNat, ← BitVec.testBit_toNat, Nat.toNat_testBit]

theorem shrFlag_toNat (a : Byte) : (shrFlag a).toNat = a.toNat % 2 := by
  rw [shrFlag, flagByte_getLsbD_toNat, pow_zero, Nat.div_one]

theorem shlFlag_toNat (a : Byte) : (shlFlag a).toNat = a.toNat / 128 := by
  have hlt : a.toNat / 128 < 2 := by omega
  exact (flagByte_getLsbD_toNat a 7).trans (Nat.mod_eq_of_lt hlt)

/-- The difference of two bytes is that of their values, reduced modulo 256 (42_load_and_alu R118). -/
theorem sub_toNat_emod (a b : Byte) : ((a - b).toNat : Int) = (a.toNat - b.toNat : Int) % 256 := by
  rw [BitVec.toNat_sub]
  omega

/-! ## The forms: a result in Vx, with a flag in VF or without -/

section Alu
variable {s : State} {x : RegIdx} {b f : Byte} {i : Instr}

/-- An instruction that writes one register and goes on does nothing else. -/
theorem exec_setReg (he : exec i s = .next (s.setReg x b).advance) :
    ∃ t, exec i s = .next t ∧ t.reg x = b ∧ t.pc = s.pc + 2 ∧ Frame { regs := [x] } s t :=
  ⟨_, he, s.setReg_reg_self x b, rfl, ((Frame.refl _ s).setReg (.head _) b).advance⟩

/-- An instruction that writes a flag and then a result leaves the result in Vx and, unless x = F, the
flag in VF (40_cycle_engine R85). -/
theorem exec_setFlagThenReg (he : exec i s = .next (s.setFlagThenReg f x b).advance) :
    ∃ t, exec i s = .next t ∧ t.reg x = b ∧ (x ≠ 0xF → t.reg 0xF = f) ∧ t.pc = s.pc + 2 ∧
      Frame { regs := [x, 0xF] } s t := by
  refine ⟨_, he, ?_, fun hx => ?_, rfl,
    ((Frame.refl _ s).setFlagThenReg (.tail _ (.head _)) (.head _) f b).advance⟩
  · rw [State.advance_reg, State.setFlagThenReg_reg, if_pos rfl]
  · rw [State.advance_reg, State.setFlagThenReg_reg, if_neg hx.symm]
    exact if_pos rfl

/-- An instruction that subtracts c from a writes the difference and the no-borrow flag. -/
theorem exec_difference {a c : Byte}
    (he : exec i s = .next (s.setFlagThenReg (noBorrowFlag a c) x (a - c)).advance) :
    ∃ t, exec i s = .next t ∧ ((t.reg x).toNat : Int) = (a.toNat - c.toNat : Int) % 256 ∧
      (x ≠ 0xF → t.reg 0xF = if a.toNat ≥ c.toNat then 1 else 0) ∧ t.pc = s.pc + 2 ∧
      Frame { regs := [x, 0xF] } s t := by
  obtain ⟨t, hexec, hres, hflag, hpc, hframe⟩ := exec_setFlagThenReg he
  exact ⟨t, hexec, hres ▸ sub_toNat_emod a c, fun hx => (hflag hx).trans (flagByte_decide _), hpc,
    hframe⟩

end Alu

/-! ## The obligations -/

/-- Settles O30: the load is the one register write. -/
theorem loadImmediateWritesVx : Obligations.LoadImmediateWritesVx := fun x nn _ =>
  ⟨decodeWord_encode (.ldImm x nn), exec_setReg rfl⟩

/-- Settles O31: the sum of two bytes is reduced modulo 256. -/
theorem addImmediateWrapsWithoutFlag : Obligations.AddImmediateWrapsWithoutFlag := by
  intro x nn s
  obtain ⟨t, hexec, hres, hrest⟩ := exec_setReg (i := .addImm x nn) (s := s) rfl
  exact ⟨decodeWord_encode (.addImm x nn), t, hexec, hres ▸ BitVec.toNat_add _ nn, hrest⟩

/-- Settles O32: each form writes its bitwise operation's result, which is taken bit by bit. -/
theorem assignAndLogicWriteOnlyVx : Obligations.AssignAndLogicWriteOnlyVx := by
  intro x y s
  obtain ⟨tor, hor, hvor, hrestOr⟩ := exec_setReg (i := .orReg x y) (s := s) rfl
  obtain ⟨tand, hand, hvand, hrestAnd⟩ := exec_setReg (i := .andReg x y) (s := s) rfl
  obtain ⟨txor, hxor, hvxor, hrestXor⟩ := exec_setReg (i := .xorReg x y) (s := s) rfl
  exact ⟨⟨decodeWord_encode (.ldReg x y), exec_setReg rfl⟩,
    ⟨decodeWord_encode (.orReg x y), tor, hor, fun _ => hvor ▸ BitVec.getLsbD_or, hrestOr⟩,
    ⟨decodeWord_encode (.andReg x y), tand, hand, fun _ => hvand ▸ BitVec.getLsbD_and, hrestAnd⟩,
    ⟨decodeWord_encode (.xorReg x y), txor, hxor, fun _ => hvxor ▸ BitVec.getLsbD_xor, hrestXor⟩⟩

/-- Settles O33: the carry flag compares the unreduced sum with 255. -/
theorem addRegistersWritesSumAndCarry : Obligations.AddRegistersWritesSumAndCarry := by
  intro x y s
  obtain ⟨t, hexec, hsum, hcarry, hrest⟩ :=
    exec_setFlagThenReg (i := .addReg x y) (s := s) rfl
  exact ⟨decodeWord_encode (.addReg x y), t, hexec, hsum ▸ BitVec.toNat_add _ _,
    fun hx => (hcarry hx).trans (flagByte_decide _), hrest⟩

/-- Settles O34: the two forms are one subtraction with the operands exchanged. -/
theorem subtractWritesDifferenceAndNoBorrow : Obligations.SubtractWritesDifferenceAndNoBorrow :=
  fun x y _ => ⟨⟨decodeWord_encode (.subReg x y), exec_difference rfl⟩,
    ⟨decodeWord_encode (.subnReg x y), exec_difference rfl⟩⟩

/-- Settles O35: a shift by one halves or doubles, and its flag is the lowest or the highest digit. -/
theorem shiftsMoveVxByOne : Obligations.ShiftsMoveVxByOne := by
  intro x y s
  obtain ⟨tr, hshr, hhalf, hlow, hrestR⟩ := exec_setFlagThenReg (i := .shr x y) (s := s) rfl
  obtain ⟨tl, hshl, hdouble, hhigh, hrestL⟩ := exec_setFlagThenReg (i := .shl x y) (s := s) rfl
  refine ⟨⟨decodeWord_encode (.shr x y), tr, hshr, ?_, fun hx => ?_, hrestR⟩,
    ⟨decodeWord_encode (.shl x y), tl, hshl, ?_, fun hx => ?_, hrestL⟩⟩
  · rw [hhalf, BitVec.toNat_ushiftRight, Nat.shiftRight_eq_div_pow, pow_one]
  · rw [hlow hx, shrFlag_toNat]
  · rw [hdouble, BitVec.toNat_shiftLeft, Nat.shiftLeft_eq, pow_one]
  · rw [hhigh hx, shlFlag_toNat]

/-- Settles O36: the mask removes from the random byte, whatever it is, every bit outside nn. -/
theorem randomIsMaskedByImmediate : Obligations.RandomIsMaskedByImmediate := by
  intro x nn s
  have hreg : (s.setReg x (s.random &&& nn)).drawn.advance.reg x = s.random &&& nn :=
    s.setReg_reg_self x _
  refine ⟨decodeWord_encode (.rnd x nn), _, rfl, hreg, ?_, rfl, rfl,
    (((Frame.refl _ s).setReg (.head _) _).drawn rfl).advance⟩
  rw [hreg, BitVec.and_assoc, BitVec.and_not_self]
  exact BitVec.and_zero

end Sys2Proof.Machine

/-!
The proofs about the index register and memory (43_index_and_memory): three forms write I, two store
bytes from I up, and one loads registers from there.
-/

namespace Sys2Proof.Machine

section IndexMemory
variable {s : State} {i : Instr}

/-- An instruction that writes I and goes on does nothing else. -/
theorem exec_setIndex {w : Word} {n : Nat} (he : exec i s = .next (s.setIndex w).advance)
    (hw : w.toNat = n) :
    ∃ t, exec i s = .next t ∧ t.index.toNat = n ∧ t.pc = s.pc + 2 ∧ Frame { index := true } s t :=
  ⟨_, he, hw, rfl, ((Frame.refl _ s).setIndex rfl w).advance⟩

/-- An instruction that stores bytes from I up and goes on, its range inside memory, leaves byte k of
them at I + k and does nothing else (20_memory R47). -/
theorem exec_storeBytes {bs : List Byte} {n : Nat} (hlen : bs.length = n)
    (he : exec i s = guardRange s.index n
      (.next (s.setMem (Memory.writeBytes s.mem s.index.toNat bs)).advance))
    (hm : Memory.wf s.mem) (hfit : s.index.toNat + n ≤ 0x1000) :
    ∃ t, exec i s = .next t ∧
      (∀ k (hk : k < bs.length), Memory.read t.mem (s.index.toNat + k) = bs[k]) ∧
      t.pc = s.pc + 2 ∧ Frame { bytes := addressesFrom s.index n } s t := by
  subst hlen
  exact ⟨_, he.trans (guardRange_ok (.inr (by omega)) _),
    fun _ hk => Memory.read_writeBytes_inside hm _ bs hfit hk, rfl,
    ((Frame.refl _ s).storeBytes rfl).advance⟩

/-- Loading V0 to Vx from a run of x + 1 bytes gives each of these registers its own byte. -/
theorem setRegs_readBytes_reg (s : State) (m : Memory) (a : Nat) {r x : RegIdx}
    (h : r.toNat ≤ x.toNat) :
    (s.setRegs 0 (Memory.readBytes m a (rangeLength x))).reg r = Memory.read m (a + r.toNat) := by
  have hr : r.toNat < (Memory.readBytes m a (rangeLength x)).length := by
    rw [Memory.readBytes_length, rangeLength]; omega
  have hlen : 0 + (Memory.readBytes m a (rangeLength x)).length ≤ 16 := by
    rw [Memory.readBytes_length, rangeLength]; omega
  rw [State.setRegs_reg s 0 _ hlen r, if_pos (by omega), Nat.sub_zero,
    List.getD_eq_getElem _ _ hr, Memory.readBytes_getElem]

/-- Fx65 with its range inside memory loads the registers and goes on. -/
theorem execLoadRegs_ok {x : RegIdx} (h : s.index.toNat + x.toNat ≤ 0xFFF) :
    exec (.loadRegs x) s = .next
      (s.setRegs 0 (Memory.readBytes s.mem s.index.toNat (rangeLength x))).advance :=
  guardRange_ok (.inr h) _

end IndexMemory

/-! ## The obligations -/

/-- Settles O40: the three bytes stored are the digits, none of which exceeds a byte. -/
theorem bcdStoresThreeDigits : Obligations.BcdStoresThreeDigits := by
  intro x s
  refine ⟨decodeWord_encode (.ldB x), fun hm hrange => ?_⟩
  obtain ⟨t, hexec, hread, hrest⟩ :=
    exec_storeBytes (i := .ldB x) (bcdDigits_length (s.reg x)) rfl hm (by omega)
  have hdigit : ∀ d < 256, (BitVec.ofNat 8 d).toNat = d := fun _ => Nat.mod_eq_of_lt
  refine ⟨t, hexec, ?_, ?_, ?_, hrest⟩
  · exact (congrArg BitVec.toNat (hread 0 (by simp))).trans (hdigit _ (by omega))
  · exact (congrArg BitVec.toNat (hread 1 (by simp))).trans (hdigit _ (by omega))
  · exact (congrArg BitVec.toNat (hread 2 (by simp))).trans (hdigit _ (by omega))

/-- Settles O41: byte k of the run stored is Vk. -/
theorem registerDumpStoresTheRange : Obligations.RegisterDumpStoresTheRange := by
  intro x s
  refine ⟨decodeWord_encode (.storeRegs x), fun hm hrange => ?_⟩
  obtain ⟨t, hexec, hread, hrest⟩ :=
    exec_storeBytes (i := .storeRegs x) (regRange_length s x) rfl hm (by omega)
  refine ⟨t, hexec, fun r hr => ?_, hrest⟩
  rw [hread r.toNat (by rw [regRange_length]; omega), regRange_getElem, BitVec.ofNat_toNat,
    BitVec.setWidth_eq]

/-- Settles O42: the run of bytes read goes to V0 and up, and the frame allows only these registers. -/
theorem registerLoadReadsTheRange : Obligations.RegisterLoadReadsTheRange := by
  intro x s
  refine ⟨decodeWord_encode (.loadRegs x), fun hrange => ?_⟩
  refine ⟨_, execLoadRegs_ok hrange, fun r hr => setRegs_readBytes_reg s s.mem _ hr, ?_, ?_⟩
  · rw [State.advance_pc, State.setRegs_pc]
  · refine ((Frame.refl _ s).setRegs fun j hj => ofNat_mem_regsUpTo ?_).advance
    rwa [Memory.readBytes_length, Nat.zero_add] at hj

/-- Settles O37: the zero-extension keeps the value of nnn. -/
theorem loadIndexZeroExtends : Obligations.LoadIndexZeroExtends := fun nnn _ =>
  ⟨decodeWord_encode (.ldI nnn), exec_setIndex rfl (addrOf_toNat nnn)⟩

/-- Settles O38: the sum of I and the zero-extended Vx is reduced modulo 65536. -/
theorem addIndexWrapsWithoutFlag : Obligations.AddIndexWrapsWithoutFlag := fun x _ =>
  ⟨decodeWord_encode (.addI x), exec_setIndex rfl (indexPlus_toNat _ _)⟩

/-- Settles O39: five times a byte fits in 16 bits. -/
theorem fontAddressIsFiveTimesVx : Obligations.FontAddressIsFiveTimesVx := fun x _ =>
  ⟨decodeWord_encode (.ldF x), exec_setIndex rfl (glyphAddress_toNat _)⟩

end Sys2Proof.Machine

/-!
The proofs about the display (44_display): 00E0 clears every pixel, and Dxyn flips the pixels its sprite
covers, so that drawing the same sprite again flips them back.
-/

namespace Sys2Proof.Machine

/-! ## Framebuffers, pixel by pixel -/

theorem Gfx.lt_of_pixel {g : Gfx} {p : Nat} (h : Gfx.pixel g p = true) : p < 2048 :=
  BitVec.lt_of_getLsbD h

theorem Gfx.eq_of_pixel_eq {g k : Gfx} (h : ∀ p < 2048, Gfx.pixel g p = Gfx.pixel k p) : g = k :=
  BitVec.eq_of_getLsbD_eq h

/-- From g to h to k: if the second change flips exactly the pixels that the first one flipped, it
undoes it. -/
theorem Gfx.eq_of_flipped_back {g h k : Gfx}
    (hback : ∀ p < 2048, Gfx.pixel k p ≠ Gfx.pixel h p ↔ Gfx.pixel h p ≠ Gfx.pixel g p) : k = g := by
  have hbool : ∀ a b c : Bool, (c ≠ b ↔ b ≠ a) → c = a := by decide
  exact Gfx.eq_of_pixel_eq fun p hp => hbool _ _ _ (hback p hp)

/-! ## What a draw does (44_display R141) -/

/-- The framebuffer and the collision that Dxyn computes before it writes either. -/
def drawing (x y : RegIdx) (n : BitVec 4) (s : State) : Drawing :=
  drawRows (s.reg x).toNat (s.reg y).toNat (Memory.readBytes s.mem s.index.toNat n.toNat)
    ⟨s.gfx, false⟩

section Draw
variable {x y : RegIdx} {n : BitVec 4} {s t : State}

/-- A draw whose rows are inside memory writes its drawing, the collision as the flag, and goes on. -/
theorem exec_drw_ok (h : n = 0 ∨ s.index.toNat + n.toNat - 1 ≤ 0xFFF) :
    exec (.drw x y n) s = .next ((s.setGfx (drawing x y n s).gfx).setFlag
      (flagByte (drawing x y n s).collision)).advance :=
  guardRange_ok (h.imp_left (congrArg BitVec.toNat)) _

/-- A draw that succeeds has its rows inside memory. -/
theorem exec_drw_range (h : exec (.drw x y n) s = .next t) :
    n = 0 ∨ s.index.toNat + n.toNat - 1 ≤ 0xFFF :=
  (guardRange_next h).1.imp_left (BitVec.eq_of_toNat_eq (y := 0))

/-- The rows a draw reads from memory cover the pixels its sprite covers. -/
theorem rowsCover_readBytes_iff (s : State) (cx cy n p : Nat) :
    rowsCover cx cy (Memory.readBytes s.mem s.index.toNat n) p ↔ spriteCovers s cx cy n p := by
  simp only [rowsCover, rowCovers, spriteCovers, spriteBit, pixelIndex, Config.gfxWidth,
    Config.gfxHeight, Memory.readBytes_getElem, Memory.readBytes_length, exists_prop]

/-- The closed form of the drawing loop, said of a whole Dxyn. -/
theorem drawing_spec (x y : RegIdx) (n : BitVec 4) (s : State) :
    (∀ p, Gfx.pixel (drawing x y n s).gfx p = true ↔
      (Gfx.pixel s.gfx p = true ∧ ¬ spriteCovers s (s.reg x).toNat (s.reg y).toNat n.toNat p) ∨
      (Gfx.pixel s.gfx p = false ∧ spriteCovers s (s.reg x).toNat (s.reg y).toNat n.toNat p)) ∧
    ((drawing x y n s).collision = true ↔
      ∃ p, spriteCovers s (s.reg x).toNat (s.reg y).toNat n.toNat p ∧ Gfx.pixel s.gfx p = true) := by
  have hlen : (Memory.readBytes s.mem s.index.toNat n.toNat).length ≤ 32 := by
    rw [Memory.readBytes_length]; omega
  simpa only [drawing, rowsCover_readBytes_iff, Bool.false_eq_true, false_or] using
    drawRows_spec (s.reg x).toNat (s.reg y).toNat _ ⟨s.gfx, false⟩ hlen

theorem drawing_pixel_ne_iff (x y : RegIdx) (n : BitVec 4) (s : State) (p : Nat) :
    Gfx.pixel (drawing x y n s).gfx p ≠ Gfx.pixel s.gfx p ↔
      spriteCovers s (s.reg x).toNat (s.reg y).toNat n.toNat p := by
  have hpixel := (drawing_spec x y n s).1 p
  cases hs : Gfx.pixel s.gfx p <;> simp [hs, hpixel]

/-- A draw collides exactly when it clears a pixel. -/
theorem drawing_collision_iff (x y : RegIdx) (n : BitVec 4) (s : State) :
    (drawing x y n s).collision = true ↔
      ∃ p < 2048, Gfx.pixel s.gfx p = true ∧ Gfx.pixel (drawing x y n s).gfx p = false := by
  rw [(drawing_spec x y n s).2]
  constructor
  · rintro ⟨p, hcovers, hset⟩
    have hflipped := (drawing_pixel_ne_iff x y n s p).2 hcovers
    rw [hset, Ne, Bool.not_eq_true] at hflipped
    exact ⟨p, Gfx.lt_of_pixel hset, hset, hflipped⟩
  · rintro ⟨p, -, hset, hclear⟩
    refine ⟨p, (drawing_pixel_ne_iff x y n s p).1 ?_, hset⟩
    rw [hset, hclear]
    exact Bool.false_ne_true

/-- After a draw at registers other than VF, the same sprite at the same place covers the same pixels. -/
theorem spriteCovers_after_draw (hframe : Frame { regs := [0xF], gfx := true } s t) (hx : x ≠ 0xF)
    (hy : y ≠ 0xF) (n p : Nat) :
    spriteCovers t (t.reg x).toNat (t.reg y).toNat n p ↔
      spriteCovers s (s.reg x).toNat (s.reg y).toNat n p := by
  have hread : ∀ a, Memory.read t.mem a = Memory.read s.mem a :=
    fun a => hframe.bytes a List.not_mem_nil
  rw [hframe.regs x (List.mem_singleton.not.2 hx), hframe.regs y (List.mem_singleton.not.2 hy)]
  simp only [spriteCovers, hframe.index rfl, hread]

end Draw

/-! ## The obligations -/

/-- Settles O47: VF is the collision of the closed form, and that is whether a pixel was cleared. -/
theorem drawFlipsExactlyTheSprite : Obligations.DrawFlipsExactlyTheSprite := by
  intro x y n s
  refine ⟨decodeWord_encode (.drw x y n), fun hrange => ⟨_, exec_drw_ok hrange,
    fun p _ => drawing_pixel_ne_iff x y n s p, fun hcleared => ?_, fun hkept => ?_, rfl,
    (((Frame.refl _ s).setGfx rfl _).setReg (.head _) _).advance⟩⟩
  · have hcollision := (drawing_collision_iff x y n s).2 hcleared
    exact (State.setReg_reg_self _ vf _).trans (congrArg flagByte hcollision)
  · have hcollision : (drawing x y n s).collision = false := by
      rw [Bool.eq_false_iff, Ne, drawing_collision_iff]
      rintro ⟨p, hp, hset, hclear⟩
      exact Bool.false_ne_true (hclear.symm.trans (hkept p hp hset))
    exact (State.setReg_reg_self _ vf _).trans (congrArg flagByte hcollision)

/-- Settles O48: the first draw keeps all that decides which pixels the sprite covers, so that the second
flips the same pixels back, and clears exactly those that the first one set. -/
theorem drawTwiceRestoresTheScreen : Obligations.DrawTwiceRestoresTheScreen := by
  intro x y n s t hx hy hdraw
  have hrange := exec_drw_range hdraw
  obtain ⟨t', hdraw', hflip, -, -, -, hframe⟩ := (drawFlipsExactlyTheSprite x y n s).2 hrange
  obtain rfl : t = t' := Host.Outcome.next.inj (hdraw.symm.trans hdraw')
  obtain ⟨u, hagain, hflipAgain, hcollides, hclean, -⟩ :=
    (drawFlipsExactlyTheSprite x y n t).2 (hframe.index rfl ▸ hrange)
  have hrestored : u.gfx = s.gfx := Gfx.eq_of_flipped_back fun p hp =>
    (hflipAgain p hp).trans ((spriteCovers_after_draw hframe hx hy _ p).trans (hflip p hp).symm)
  rw [hrestored] at hcollides hclean
  refine ⟨u, hagain, hrestored, ?_⟩
  by_cases hset : ∃ p < 2048, Gfx.pixel s.gfx p = false ∧ Gfx.pixel t.gfx p = true
  · have hvf : u.reg 0xF = 1 := hcollides (by simpa only [and_comm] using hset)
    exact ⟨iff_of_true hvf hset, .inr hvf⟩
  · have hvf : u.reg 0xF = 0 := hclean fun p hp ht => by
      by_contra hs
      exact hset ⟨p, hp, Bool.eq_false_iff.2 hs, ht⟩
    exact ⟨iff_of_false (by rw [hvf]; decide) hset, .inl hvf⟩

/-- Settles O46: the framebuffer written is the zero vector, and VF is not in the frame's list. -/
theorem clearScreenZeroesEveryPixel : Obligations.ClearScreenZeroesEveryPixel :=
  ⟨decodeWord_encode .cls, fun s => ⟨_, rfl, fun _ _ => BitVec.getLsbD_zero, rfl,
    ((Frame.refl _ s).setGfx rfl _).advance⟩⟩

end Sys2Proof.Machine

/-!
The proofs about keys and timers (45_keys_and_timers): the skips on a key, the key wait, the read of DT,
and the writes of DT and ST that the tick of the same cycle follows.
-/

namespace Sys2Proof.Machine

section KeysTimers
variable {s : State}

/-- The key wait takes k exactly when k is down and no key below it is (45_keys_and_timers R153, D8). -/
theorem lowestKey_eq_some_iff {k : BitVec 4} :
    lowestKey s = some k ↔
      s.keyDown k = true ∧ ∀ j : BitVec 4, j.toNat < k.toNat → s.keyDown j = false := by
  refine ⟨lowestKey_some, fun ⟨hdown, hleast⟩ => ?_⟩
  cases hlow : lowestKey s with
  | none => exact absurd ((lowestKey_eq_none_iff s).1 hlow k) (by simp [hdown])
  | some m =>
    obtain ⟨hmdown, hmleast⟩ := lowestKey_some hlow
    have hmk : ¬ m.toNat < k.toNat := fun hlt => by simp [hleast m hlt] at hmdown
    have hkm : ¬ k.toNat < m.toNat := fun hlt => by simp [hmleast k hlt] at hdown
    exact congrArg some (BitVec.eq_of_toNat_eq (by omega))

/-- The key named by the low 4 bits of a byte is the one the skips test (45_keys_and_timers R150). -/
theorem eq_keyIndex {k : BitVec 4} {b : Byte} (h : k.toNat = b.toNat % 16) : k = keyIndex b :=
  BitVec.eq_of_toNat_eq (h.trans (keyIndex_toNat b).symm)

end KeysTimers

/-! ## The obligations -/

/-- Settles O51: the least key down is the one the search finds, and its number fits in a byte. -/
theorem waitForKeyTakesTheLeastOrBlocks : Obligations.WaitForKeyTakesTheLeastOrBlocks := by
  intro x s
  refine ⟨decodeWord_encode (.ldVxK x), fun k hdown hleast => ?_,
    fun hup => execLdVxK_blocked x (lowestKey_none hup)⟩
  obtain ⟨t, hexec, hres, hrest⟩ := exec_setReg (i := .ldVxK x)
    (execLdVxK_pressed x (lowestKey_eq_some_iff.2 ⟨hdown, hleast⟩))
  exact ⟨t, hexec, hres ▸ BitVec.toNat_setWidth_of_le (by decide), hrest⟩

/-- Settles O49: each of the two forms ends with the skip on the key its low 4 bits name. -/
theorem skipTestsTheKeyVxNames : Obligations.SkipTestsTheKeyVxNames := by
  intro x s k hk
  obtain rfl := eq_keyIndex hk
  exact ⟨⟨decodeWord_encode (.skp x), exec_skipIf rfl Iff.rfl⟩,
    ⟨decodeWord_encode (.sknp x), exec_skipIf rfl (by rw [Bool.not_eq_true'])⟩⟩

/-- Settles O50: the instruction keeps DT, which the tick counts, and the tick keeps Vx. -/
theorem readDelayTimerBeforeTheTick : Obligations.ReadDelayTimerBeforeTheTick := by
  intro x s
  obtain ⟨t, hexec, hres, hpc, hframe⟩ := exec_setReg (i := .ldVxDT x) (s := s) rfl
  exact ⟨decodeWord_encode (.ldVxDT x), t, hexec, hres, hpc, (tick_reg t x).trans hres,
    hframe.delayTimer rfl ▸ countDown_toNat t.delayTimer, hframe⟩

/-- Settles O53: the tick counts down the value the instruction wrote. -/
theorem setDelayTimerThenTick : Obligations.SetDelayTimerThenTick := fun x s =>
  ⟨decodeWord_encode (.ldDTVx x), _, rfl, rfl, rfl, countDown_toNat (s.reg x),
    ((Frame.refl _ s).setDelayTimer rfl _).advance⟩

/-- Settles O54: the tick counts down the value the instruction wrote, and its output tests that value
for 1. -/
theorem setSoundTimerThenTick : Obligations.SetSoundTimerThenTick := fun x s =>
  ⟨decodeWord_encode (.ldSTVx x), _, rfl, rfl, rfl, countDown_toNat (s.reg x),
    (tick_soundTick_iff _).trans BitVec.toNat_inj.symm,
    ((Frame.refl _ s).setSoundTimer rfl _).advance⟩

end Sys2Proof.Machine

/-!
The proofs about errors (60_exceptions): which instruction faults in which state, and so which step,
and the one write the host makes between cycles.
-/

namespace Sys2Proof.Machine

/-! ## The one error of a result, if it has any -/

/-- The result is the given error where there is one, and a next state where there is none. -/
def FaultsExactly (o : Option Fault) (r : Result) : Prop :=
  (∀ f, o = some f → r = .fault f) ∧ (o = none → ∃ t, r = .next t)

section Errors
variable {s : State} {i : Instr} {P : Prop} [Decidable P]

theorem faultsExactly_next (t : State) : FaultsExactly none (.next t) :=
  ⟨nofun, fun _ => ⟨t, rfl⟩⟩

/-- A result that is an error under a condition and a next state otherwise. -/
theorem faultsExactly_ite {g : Fault} {r : Result} (hfault : P → r = .fault g)
    (hnext : ¬ P → ∃ t, r = .next t) : FaultsExactly (if P then some g else none) r := by
  by_cases hP : P
  · rw [if_pos hP]
    exact ⟨fun _ hf => Option.some.inj hf ▸ hfault hP, nofun⟩
  · rw [if_neg hP]
    exact ⟨nofun, fun _ => hnext hP⟩

/-- The range check of an access from I up, whichever way its condition is written
(60_exceptions R162). -/
theorem faultsExactly_guardRange {len : Nat}
    (hP : P ↔ 0 < len ∧ 0xFFF < s.index.toNat + len - 1) (t : State) :
    FaultsExactly (if P then some (ownFault.bad s) else none) (guardRange s.index len (.next t)) :=
  faultsExactly_ite
    (fun h => guardRange_fault (hP.1 h).1 (hP.1 h).2 _)
    (fun h => ⟨t, guardRange_ok (by rw [hP] at h; omega) _⟩)

/-- A call faults exactly on a full stack (60_exceptions R163). -/
theorem execCall_faultsExactly (nnn : Addr12) (s : State) :
    FaultsExactly (ownFault s (.call nnn)) (execCall nnn s) :=
  faultsExactly_ite
    (fun h => push_full (congrArg Fin.val h) _ _)
    (fun h => ⟨_, execCall_room nnn (Fin.val_lt_last h)⟩)

/-- A return faults exactly on an empty stack (60_exceptions R163). -/
theorem execRet_faultsExactly (s : State) : FaultsExactly (ownFault s .ret) (execRet s) :=
  faultsExactly_ite
    (fun h => pop_empty (congrArg Fin.val h) _)
    (fun h => ⟨_, execRet_entry (Fin.pos_iff_ne_zero.2 h)⟩)

/-- A key wait cannot raise, whether it takes a key or blocks (45_keys_and_timers R153). -/
theorem execLdVxK_faultsExactly (x : RegIdx) (s : State) :
    FaultsExactly none (execLdVxK x s) := by
  cases hk : lowestKey s with
  | none => exact execLdVxK_blocked x hk ▸ faultsExactly_next _
  | some k => exact execLdVxK_pressed x hk ▸ faultsExactly_next _

/-- Every instruction faults exactly as the table of its own error says, and none is refused. -/
theorem exec_faultsExactly (i : Instr) (s : State) : FaultsExactly (ownFault s i) (exec i s) := by
  cases i with
  | call nnn => exact execCall_faultsExactly nnn s
  | ret => exact execRet_faultsExactly s
  | drw _ _ _ => exact faultsExactly_guardRange Iff.rfl _
  | ldB _ => exact faultsExactly_guardRange (by omega) _
  | storeRegs _ | loadRegs _ => exact faultsExactly_guardRange (by rw [rangeLength]; omega) _
  | ldVxK x => exact execLdVxK_faultsExactly x s
  | _ => exact faultsExactly_next _

theorem exec_of_ownFault_some {f : Fault} (h : ownFault s i = some f) : exec i s = .fault f :=
  (exec_faultsExactly i s).1 f h

theorem exec_of_ownFault_none (h : ownFault s i = none) : ∃ t, exec i s = .next t :=
  (exec_faultsExactly i s).2 h

end Errors

/-! ## The obligations -/

/-- Settles O10: the fetch, the decode and the instruction's own error are met in this order. -/
theorem stepFaultsExactlyAsListed : Obligations.StepFaultsExactlyAsListed := by
  refine fun s => ⟨step_of_bad_pc, step_of_unsupported, fun hpc i f hd hown => ?_,
    fun hpc i hd hown => ?_⟩
  · exact step_fault_of_exec_fault hpc hd (exec_of_ownFault_some hown)
  · obtain ⟨u, hexec⟩ := exec_of_ownFault_none hown
    exact ⟨tick u, step_next_of_exec_next hpc hd hexec⟩

/-- Settles O43: the error table's row of each of the four forms, in the case that its range reaches
above memory. -/
theorem accessesAboveMemoryFault : Obligations.AccessesAboveMemoryFault := fun _ =>
  ⟨fun _ h => exec_of_ownFault_some (if_pos h), fun _ h => exec_of_ownFault_some (if_pos h),
    fun _ h => exec_of_ownFault_some (if_pos h),
    fun _ _ _ hn h => exec_of_ownFault_some (if_pos ⟨hn, h⟩)⟩

/-- Settles O26: the error table's rows of the call with no room and the return with no entry. -/
theorem stackOverflowAndUnderflowFault : Obligations.StackOverflowAndUnderflowFault :=
  ⟨fun _ _ h => exec_of_ownFault_some (if_pos (Fin.ext h)),
    fun _ h => exec_of_ownFault_some (if_pos (Fin.ext h))⟩

/-- Settles O57: a read of a key after the write of one, and the write is to the key mask only. -/
theorem keyWriteSetsOneKey : Obligations.KeyWriteSetsOneKey := fun k pressed s =>
  ⟨fun j => s.setKey_keyDown k j pressed, rfl⟩

end Sys2Proof.Machine

/-!
The proof about loading a program (70_reset_and_hazards): the size check, and the one write to memory
that follows it.
-/

namespace Sys2Proof.Machine

section LoadProgram
variable {bytes : List Byte}

theorem programWellFormed_iff : programWellFormed bytes = true ↔ bytes.length ≤ 3584 :=
  decide_eq_true_iff

/-- A program that fits is stored from 0x200 up (70_reset_and_hazards R195). -/
theorem hostLoadProgram_fits (h : bytes.length ≤ 3584) (s : State) :
    hostLoadProgram bytes s = .next (s.setMem (Memory.writeBytes s.mem 0x200 bytes)) :=
  if_pos (programWellFormed_iff.2 h)

/-- A program that does not fit is rejected whole (60_exceptions R164, D13). -/
theorem hostLoadProgram_tooLarge (h : 3584 < bytes.length) (s : State) :
    hostLoadProgram bytes s = .fault .programTooLarge :=
  if_neg (mt programWellFormed_iff.1 (Nat.not_le.2 h))

end LoadProgram

/-! ## The obligation -/

/-- Settles O56: a program of at most 3584 bytes ends at 0x1000 or below, so that every byte of it is
stored, and no other address is written. -/
theorem loadProgramStoresOnlyTheProgram : Obligations.LoadProgramStoresOnlyTheProgram := by
  intro bytes s hm
  refine ⟨fun hfits => ⟨_, hostLoadProgram_fits hfits s, fun k hk => ?_, fun a ha => ?_, rfl⟩,
    fun hlarge => hostLoadProgram_tooLarge hlarge s⟩
  · have hend : 0x200 + bytes.length ≤ Config.memSize := by
      rw [Config.memSize]
      omega
    exact Memory.read_writeBytes_inside hm 0x200 bytes hend hk
  · exact Memory.read_writeBytes_outside s.mem 0x200 bytes ha

end Sys2Proof.Machine

/-!
The proofs about the host's runs (60_exceptions, 70_reset_and_hazards), the framebuffer (10_state) and
the canonical form of memory (20_memory): what every move of the host keeps, who reads gfx, and that a
canonical memory is known by its reads.
-/

namespace Sys2Proof.Machine

/-! ## The host's moves and the invariant, one rule per move -/

section HostMoves
variable {s : State}

/-- `initialize` differs from reset in the count of random bytes only, which the invariant does not
speak of (log 12). -/
theorem inv_hostInitialize (s : State) : State.Inv (hostInitialize s) :=
  have hreset : State.Inv State.reset := resetMeetsTheInvariant
  { hreset with }

/-- A load keeps memory canonical and touches nothing else (70_reset_and_hazards R195). -/
theorem State.Inv.hostLoadProgram (hs : State.Inv s) (bytes : List Byte) :
    Ensures State.Inv (hostLoadProgram bytes s) := by
  by_cases hfits : bytes.length ≤ 3584
  · rw [hostLoadProgram_fits hfits]
    exact ensures_next { hs with mem := Memory.writeBytes_wf hs.mem 0x200 bytes }
  · rw [hostLoadProgram_tooLarge (Nat.lt_of_not_le hfits)]
    exact ensures_fault _

/-- The invariant does not speak of the key mask (60_exceptions R178). -/
theorem State.Inv.hostWriteKey (hs : State.Inv s) (k : BitVec 4) (pressed : Bool) :
    State.Inv (hostWriteKey k pressed s) := { hs with }

/-- A cycle leaves either the next state of its step or the state before it (60_exceptions R166). -/
theorem State.Inv.executeCycle (hs : State.Inv s) : State.Inv (executeCycle s).state := by
  unfold Machine.executeCycle
  split
  · next t hstep => exact everyStepKeepsTheInvariant s t hs hstep
  · exact hs
  · exact hs

theorem State.Inv.hostMove (hs : State.Inv s) (m : HostMove) : State.Inv (hostMove m s) := by
  cases m with
  | reset => exact inv_hostInitialize s
  | loadProgram bytes =>
    rw [Machine.hostMove]
    split
    · next t hload => exact hs.hostLoadProgram bytes t hload
    · exact hs
  | writeKey k pressed => exact hs.hostWriteKey k pressed
  | cycle => exact hs.executeCycle

end HostMoves

/-! ## The framebuffer -/

theorem bystander_gfx (g : Gfx) : Bystander fun s => { s with gfx := g } := by
  constructor <;> intros <;> rfl

/-! ## The canonical form of memory -/

/-- A canonical memory lists exactly the bytes that read as something else than an unlisted address
does, so its entries are known from its reads. -/
theorem Memory.mem_iff_read {m : Memory} (hm : Memory.wf m) (a : Nat) (b : Byte) :
    (a, b) ∈ m ↔ Memory.read m a = b ∧ b ≠ Memory.unlisted a := by
  induction m with
  | nil => exact iff_of_false List.not_mem_nil fun ⟨hb, hne⟩ => hne hb.symm
  | cons e rest ih =>
    obtain ⟨k, c⟩ := e
    rw [List.mem_cons, Memory.read]
    by_cases hk : k = a
    · subst hk
      have hnot : (k, b) ∉ rest := fun h =>
        Nat.lt_irrefl k ((List.pairwise_cons.1 hm.1).1 (k, b) h)
      have hlisted : c ≠ Memory.unlisted k := (hm.2 (k, c) List.mem_cons_self).2
      rw [if_pos rfl, or_iff_left hnot, Prod.mk.injEq]
      exact ⟨fun ⟨_, hb⟩ => ⟨hb.symm, hb ▸ hlisted⟩, fun ⟨hb, _⟩ => ⟨rfl, hb.symm⟩⟩
    · have hne : (a, b) ≠ (k, c) := fun h => hk (congrArg Prod.fst h).symm
      rw [if_neg hk, or_iff_right hne]
      exact ih (Memory.wf_tail hm)

/-! ## The obligations -/

/-- Settles O17: by induction on the moves, each of which keeps the invariant. -/
theorem hostRunsKeepTheInvariant : Obligations.HostRunsKeepTheInvariant := by
  intro ms
  induction ms with
  | nil => exact fun _ hs => hs
  | cons m ms ih => exact fun s hs => ih (hostMove m s) (hs.hostMove m)

/-- Settles O21: the instructions that use no device cannot see gfx, and of the others only Dxyn and
00E0 touch it, the latter overwriting it. -/
theorem framebufferIsReadOnlyByDraw : Obligations.FramebufferIsReadOnlyByDraw := by
  intro i s g
  refine ⟨fun ⟨hcls, hdrw⟩ => ?_, ?_⟩
  · have hg := bystander_gfx g
    cases i with
    | cls => exact absurd rfl hcls
    | drw x y n => exact absurd rfl (hdrw x y n)
    | skp _ | sknp _ => exact congrArg Host.Outcome.next (hg.skipIf s _)
    | ldVxK x => exact hg.execLdVxK s (fun _ => rfl) x
    | ldVxDT _ | ldDTVx _ | ldSTVx _ | rnd _ _ => rfl
    | _ => exact exec_bystander hg s _ rfl
  · rintro rfl
    rfl

/-- Settles O45: the two memories have the same entries, and a strictly rising list is known by its
entries. -/
theorem canonicalMemoriesReadingAlikeAreEqual :
    Obligations.CanonicalMemoriesReadingAlikeAreEqual := by
  intro m m' hm hm' hread
  have hirrefl : Std.Irrefl fun c d : Host.Cell => c.1 < d.1 := ⟨fun _ => Nat.lt_irrefl _⟩
  have hantisymm : Std.Antisymm fun c d : Host.Cell => c.1 < d.1 :=
    ⟨fun _ _ hlt hgt => absurd hgt (Nat.lt_asymm hlt)⟩
  refine List.Pairwise.eq_of_mem_iff hm.1 hm'.1 fun c => ?_
  rw [Memory.mem_iff_read hm, Memory.mem_iff_read hm', hread]

end Sys2Proof.Machine
